-- ==== Sys2Proof/Word.lean ====
section
/-! DEFINITION. The widths of the hardware: bytes, 16-bit words, register and key numbers. -/

namespace Sys2Proof

/-- An 8-bit value: a general register, a timer, a memory cell (10_state R20, R25, R27). -/
abbrev Byte := BitVec 8

/-- A 16-bit value: the program counter, the index register, a return address, an instruction word (10_state R22 to R24, 30_encoding R71). -/
abbrev Word := BitVec 16

/-- The number of a general register, `V0` to `VF` (10_state R20). -/
abbrev RegIdx := Fin 16

/-- The number of a key (10_state R34, decision D18). -/
abbrev Key := Fin 16

end Sys2Proof
end

