-- ==== Sys2Proof/Config.lean ====
section
/-! DEFINITION. What is fixed at RESET (00_scope R4, R9, 10_state R30), the constants of the block, and the free values. -/

namespace Sys2Proof

/-- The quirks record (10_state R30). True selects the variant the source describes as gated (decision D15). -/
structure Quirks where
  /-- `Q_SHIFT_VY`: the shifts shift `VY` into `VX`. -/
  shiftVy : Bool
  /-- `Q_MEM_INCR_I`: register dump and load leave `I` increased by `X + 1`. -/
  memIncrI : Bool
  /-- `Q_IADD_VF`: `ADD I, Vx` sets `VF` to 1. -/
  iaddVf : Bool
  /-- `Q_JUMP_VX`: the offset jump adds `VX`, not `V0`. -/
  jumpVx : Bool
deriving DecidableEq, Repr, Inhabited

/-- The parameters RESET takes beside the program image (00_scope R4). They stand in State and only RESET writes them. -/
structure Config where
  quirks : Quirks
  /-- `FONT_BASE`, the address of the first glyph byte. -/
  fontBase : Nat
  /-- `WIDTH`, the display's columns. -/
  width : Nat
  /-- `HEIGHT`, the display's rows. -/
  height : Nat
  /-- `STACK_CAPACITY`: `none` is the source's unbounded stack, `some c` a finite realisation (decision D17). -/
  stackCapacity : Option Nat
deriving DecidableEq, Repr, Inhabited

/-- `MEM_SIZE` (00_scope R4). -/
abbrev memSize : Nat := 4096

/-- `PROGRAM_START` (00_scope R4, decision D1). -/
abbrev programStart : Nat := 0x200

/-- The number of bytes of the font: 16 glyphs of 5 bytes (70_reset R202). -/
abbrev fontSize : Nat := 80

/-- The defaults the spec names (00_scope R4). The four quirk values have no default there: false is a DESIGN CHOICE (log 1). -/
def Config.default : Config :=
  { quirks := { shiftVy := false, memIncrI := false, iaddVf := false, jumpVx := false }
    fontBase := 0x050, width := 64, height := 32, stackCapacity := none }

/-- The constraints on RESET's parameters (00_scope R4): `FONT_BASE + 80 <= PROGRAM_START`, `WIDTH >= 1`, `HEIGHT >= 1`. -/
abbrev Config.legal (c : Config) : Prop :=
  c.fontBase + fontSize ≤ programStart ∧ 1 ≤ c.width ∧ 1 ≤ c.height

/-! ### The host's operations, and the free values -/

/-- The inputs of one CYCLE (10_state R33): the key query's answer (R34) and the byte RND draws (47_rnd R170). -/
structure CycleInput where
  key : Option Key
  draw : Byte
deriving DecidableEq, Repr, Inhabited

/-- One operation the host invokes (10_state R33). -/
inductive HostOp where
  /-- `CYCLE(key_in)` with the byte a RND of this cycle draws. -/
  | cycle (input : CycleInput)
  /-- `TICK`. -/
  | tick
  /-- `CLEAR_DIRTY`. -/
  | clearDirty
  /-- `RESET(ROM, quirks)` with the construction-time parameters. -/
  | reset (rom : List Byte) (config : Config)
deriving DecidableEq, Repr, Inhabited

/-- The `n`-th operation of a host that goes on after its scheduled operations: a free value, any of the four operations with any inputs,
so that every endless interleaving is an execution (00_scope R8, 93 U6, U7, U16; logs 2, 3). -/
opaque Config.freeOp : Nat → HostOp

/-- The inputs of a CYCLE that `withFetchWord` puts first, where no CYCLE with inputs of its own is next: a free value (logs 3, 17). -/
opaque Config.freeInput : Nat → CycleInput

end Sys2Proof
end

