-- ==== Sys2Proof/Syntax.lean ====
section
/-! DEFINITION. The instructions: one constructor for each of the 35 rows of spec/opcode_table.json (30_encoding R74). -/

namespace Sys2Proof

/-- An instruction. `x`, `y` are the register numbers of the fields X and Y, `nn`, `nnn`, `n` the immediates (30_encoding R72, R77). -/
inductive Instr where
  /-- `SYS nnn` (0NNN but for 00E0 and 00EE). -/
  | sys (nnn : BitVec 12)
  /-- `CLS` (00E0). -/
  | cls
  /-- `RET` (00EE). -/
  | ret
  /-- `JP nnn` (1NNN). -/
  | jp (nnn : BitVec 12)
  /-- `CALL nnn` (2NNN). -/
  | call (nnn : BitVec 12)
  /-- `SE Vx, nn` (3XNN). -/
  | seImm (x : RegIdx) (nn : Byte)
  /-- `SNE Vx, nn` (4XNN). -/
  | sneImm (x : RegIdx) (nn : Byte)
  /-- `SE Vx, Vy` (5XY0). -/
  | seReg (x y : RegIdx)
  /-- `LD Vx, nn` (6XNN). -/
  | ldImm (x : RegIdx) (nn : Byte)
  /-- `ADD Vx, nn` (7XNN). -/
  | addImm (x : RegIdx) (nn : Byte)
  /-- `LD Vx, Vy` (8XY0). -/
  | ldReg (x y : RegIdx)
  /-- `OR Vx, Vy` (8XY1). -/
  | orReg (x y : RegIdx)
  /-- `AND Vx, Vy` (8XY2). -/
  | andReg (x y : RegIdx)
  /-- `XOR Vx, Vy` (8XY3). -/
  | xorReg (x y : RegIdx)
  /-- `ADD Vx, Vy` (8XY4). -/
  | addReg (x y : RegIdx)
  /-- `SUB Vx, Vy` (8XY5). -/
  | subReg (x y : RegIdx)
  /-- `SHR Vx {, Vy}` (8XY6). -/
  | shrReg (x y : RegIdx)
  /-- `SUBN Vx, Vy` (8XY7). -/
  | subnReg (x y : RegIdx)
  /-- `SHL Vx {, Vy}` (8XYE). -/
  | shlReg (x y : RegIdx)
  /-- `SNE Vx, Vy` (9XY0). -/
  | sneReg (x y : RegIdx)
  /-- `LD I, nnn` (ANNN). -/
  | ldI (nnn : BitVec 12)
  /-- `JP V0, nnn` (BNNN); the top nibble of `nnn` is also the field X. -/
  | jpV0 (nnn : BitVec 12)
  /-- `RND Vx, nn` (CXNN). -/
  | rnd (x : RegIdx) (nn : Byte)
  /-- `DRW Vx, Vy, n` (DXYN). -/
  | drw (x y : RegIdx) (n : BitVec 4)
  /-- `SKP Vx` (EX9E). -/
  | skp (x : RegIdx)
  /-- `SKNP Vx` (EXA1). -/
  | sknp (x : RegIdx)
  /-- `LD Vx, DT` (FX07). -/
  | ldVxDt (x : RegIdx)
  /-- `LD Vx, K` (FX0A). -/
  | ldVxK (x : RegIdx)
  /-- `LD DT, Vx` (FX15). -/
  | ldDtVx (x : RegIdx)
  /-- `LD ST, Vx` (FX18). -/
  | ldStVx (x : RegIdx)
  /-- `ADD I, Vx` (FX1E). -/
  | addIVx (x : RegIdx)
  /-- `LD F, Vx` (FX29). -/
  | ldFVx (x : RegIdx)
  /-- `LD B, Vx` (FX33). -/
  | ldBVx (x : RegIdx)
  /-- `LD [I], Vx` (FX55). -/
  | ldMemVx (x : RegIdx)
  /-- `LD Vx, [I]` (FX65). -/
  | ldVxMem (x : RegIdx)
deriving DecidableEq, Repr

end Sys2Proof
end

