-- ==== Sys2Proof/WellFormed.lean ====
section
/-! DEFINITION. Which instructions the hardware has. Every field value is legal (30_encoding R79), so the one condition is on SYS. -/

namespace Sys2Proof

/-- `SYS 0x0E0` and `SYS 0x0EE` are not instructions: their words are CLS and RET (30_encoding R76, 47_rnd R172). -/
def Instr.wellFormed : Instr → Bool
  | .sys nnn => nnn != 0x0E0#12 && nnn != 0x0EE#12
  | _ => true

end Sys2Proof
end

