-- ==== Sys2Proof/Decode.lean ====
section
/-! DEFINITION. The decoder, total on any bytes (30_encoding R71, R72, R74, R76), and after it the encoder and the opcode table's rows. -/

namespace Sys2Proof

/-- Why bytes are no instruction. -/
inductive DecodeError where
  /-- Fewer than two bytes were given (30_encoding R71: every instruction is 16 bits). -/
  | truncated
  /-- The word matches none of the 35 rows (30_encoding R78); SYS words are row 1 and are not among these. -/
  | unknownOpcode (op : Word)
deriving DecidableEq, Repr

/-- The word two fetched bytes make, big-endian (20_memory R52). -/
def wordOfBytes (hi lo : Byte) : Word := hi ++ lo

/-- The first byte of a word as it lies in memory (20_memory R52). -/
def highByte (op : Word) : Byte := op.extractLsb' 8 8

/-- The second byte of a word as it lies in memory. -/
def lowByte (op : Word) : Byte := op.extractLsb' 0 8

/-- `op4 = op[15:12]` (30_encoding R72). -/
def fieldOp4 (op : Word) : BitVec 4 := op.extractLsb' 12 4

/-- `X = op[11:8]`. -/
def fieldX (op : Word) : RegIdx := (op.extractLsb' 8 4).toFin

/-- `Y = op[7:4]`. -/
def fieldY (op : Word) : RegIdx := (op.extractLsb' 4 4).toFin

/-- `n = op[3:0]`. -/
def fieldN (op : Word) : BitVec 4 := op.extractLsb' 0 4

/-- `nn = op[7:0]`. -/
def fieldNN (op : Word) : Byte := op.extractLsb' 0 8

/-- `nnn = op[11:0]`. -/
def fieldNNN (op : Word) : BitVec 12 := op.extractLsb' 0 12

/-- First nibble 0: CLS and RET before SYS (30_encoding R76). -/
def decodeGroup0 (op : Word) : Instr :=
  if op = 0x00E0#16 then .cls else if op = 0x00EE#16 then .ret else .sys (fieldNNN op)

/-- First nibble 8, keyed by the low nibble (30_encoding R74 rows 11 to 19). -/
def decodeGroup8 (x y : RegIdx) (n : BitVec 4) : Option Instr :=
  match n with
  | 0x0#4 => some (.ldReg x y)
  | 0x1#4 => some (.orReg x y)
  | 0x2#4 => some (.andReg x y)
  | 0x3#4 => some (.xorReg x y)
  | 0x4#4 => some (.addReg x y)
  | 0x5#4 => some (.subReg x y)
  | 0x6#4 => some (.shrReg x y)
  | 0x7#4 => some (.subnReg x y)
  | 0xE#4 => some (.shlReg x y)
  | _ => none

/-- First nibble E, keyed by the low byte (30_encoding R74 rows 25, 26). -/
def decodeGroupE (x : RegIdx) (nn : Byte) : Option Instr :=
  match nn with
  | 0x9E#8 => some (.skp x)
  | 0xA1#8 => some (.sknp x)
  | _ => none

/-- First nibble F, keyed by the low byte (30_encoding R74 rows 27 to 35). -/
def decodeGroupF (x : RegIdx) (nn : Byte) : Option Instr :=
  match nn with
  | 0x07#8 => some (.ldVxDt x)
  | 0x0A#8 => some (.ldVxK x)
  | 0x15#8 => some (.ldDtVx x)
  | 0x18#8 => some (.ldStVx x)
  | 0x1E#8 => some (.addIVx x)
  | 0x29#8 => some (.ldFVx x)
  | 0x33#8 => some (.ldBVx x)
  | 0x55#8 => some (.ldMemVx x)
  | 0x65#8 => some (.ldVxMem x)
  | _ => none

/-- The instruction a word is, `none` where it matches no row: the decision tree of 30_encoding R76, strict as decision D10 has it. -/
def decodeWord (op : Word) : Option Instr :=
  match fieldOp4 op with
  | 0x0#4 => some (decodeGroup0 op)
  | 0x1#4 => some (.jp (fieldNNN op))
  | 0x2#4 => some (.call (fieldNNN op))
  | 0x3#4 => some (.seImm (fieldX op) (fieldNN op))
  | 0x4#4 => some (.sneImm (fieldX op) (fieldNN op))
  | 0x5#4 => if fieldN op = 0 then some (.seReg (fieldX op) (fieldY op)) else none
  | 0x6#4 => some (.ldImm (fieldX op) (fieldNN op))
  | 0x7#4 => some (.addImm (fieldX op) (fieldNN op))
  | 0x8#4 => decodeGroup8 (fieldX op) (fieldY op) (fieldN op)
  | 0x9#4 => if fieldN op = 0 then some (.sneReg (fieldX op) (fieldY op)) else none
  | 0xA#4 => some (.ldI (fieldNNN op))
  | 0xB#4 => some (.jpV0 (fieldNNN op))
  | 0xC#4 => some (.rnd (fieldX op) (fieldNN op))
  | 0xD#4 => some (.drw (fieldX op) (fieldY op) (fieldN op))
  | 0xE#4 => decodeGroupE (fieldX op) (fieldNN op)
  | 0xF#4 => decodeGroupF (fieldX op) (fieldNN op)
  | _ => none

/-- The instruction at the head of a list of bytes, with the bytes after it, or the reason there is none. -/
def decode : List Byte → Except DecodeError (Instr × List Byte)
  | hi :: lo :: rest =>
    match decodeWord (wordOfBytes hi lo) with
    | some i => .ok (i, rest)
    | none => .error (.unknownOpcode (wordOfBytes hi lo))
  | _ => .error .truncated

/-- The four bits that name a register. -/
def regBits (r : RegIdx) : BitVec 4 := BitVec.ofFin r

/-- Formats `X` and `XNN`: first nibble, register, byte (30_encoding R73). -/
def encodeXNN (op4 : BitVec 4) (x : RegIdx) (nn : Byte) : Word := op4 ++ regBits x ++ nn

/-- Formats `XY` and `XYN`: first nibble, two registers, nibble (30_encoding R73). -/
def encodeXYN (op4 : BitVec 4) (x y : RegIdx) (n : BitVec 4) : Word := op4 ++ regBits x ++ regBits y ++ n

/-- Format `NNN`: first nibble, 12-bit value (30_encoding R73). -/
def encodeNNN (op4 : BitVec 4) (nnn : BitVec 12) : Word := op4 ++ nnn

/-- The word of an instruction (30_encoding R74). -/
def encodeWord : Instr → Word
  | .sys nnn => encodeNNN 0x0 nnn
  | .cls => 0x00E0
  | .ret => 0x00EE
  | .jp nnn => encodeNNN 0x1 nnn
  | .call nnn => encodeNNN 0x2 nnn
  | .seImm x nn => encodeXNN 0x3 x nn
  | .sneImm x nn => encodeXNN 0x4 x nn
  | .seReg x y => encodeXYN 0x5 x y 0x0
  | .ldImm x nn => encodeXNN 0x6 x nn
  | .addImm x nn => encodeXNN 0x7 x nn
  | .ldReg x y => encodeXYN 0x8 x y 0x0
  | .orReg x y => encodeXYN 0x8 x y 0x1
  | .andReg x y => encodeXYN 0x8 x y 0x2
  | .xorReg x y => encodeXYN 0x8 x y 0x3
  | .addReg x y => encodeXYN 0x8 x y 0x4
  | .subReg x y => encodeXYN 0x8 x y 0x5
  | .shrReg x y => encodeXYN 0x8 x y 0x6
  | .subnReg x y => encodeXYN 0x8 x y 0x7
  | .shlReg x y => encodeXYN 0x8 x y 0xE
  | .sneReg x y => encodeXYN 0x9 x y 0x0
  | .ldI nnn => encodeNNN 0xA nnn
  | .jpV0 nnn => encodeNNN 0xB nnn
  | .rnd x nn => encodeXNN 0xC x nn
  | .drw x y n => encodeXYN 0xD x y n
  | .skp x => encodeXNN 0xE x 0x9E
  | .sknp x => encodeXNN 0xE x 0xA1
  | .ldVxDt x => encodeXNN 0xF x 0x07
  | .ldVxK x => encodeXNN 0xF x 0x0A
  | .ldDtVx x => encodeXNN 0xF x 0x15
  | .ldStVx x => encodeXNN 0xF x 0x18
  | .addIVx x => encodeXNN 0xF x 0x1E
  | .ldFVx x => encodeXNN 0xF x 0x29
  | .ldBVx x => encodeXNN 0xF x 0x33
  | .ldMemVx x => encodeXNN 0xF x 0x55
  | .ldVxMem x => encodeXNN 0xF x 0x65

/-- The bytes of an instruction as they lie in memory (20_memory R52). -/
def encode (i : Instr) : List Byte := [highByte (encodeWord i), lowByte (encodeWord i)]

/-- The row of the opcode map an instruction belongs to, as (mask, match) (30_encoding R74). -/
def opcodeRow : Instr → Word × Word
  | .sys _ => (0xF000, 0x0000)
  | .cls => (0xFFFF, 0x00E0)
  | .ret => (0xFFFF, 0x00EE)
  | .jp _ => (0xF000, 0x1000)
  | .call _ => (0xF000, 0x2000)
  | .seImm _ _ => (0xF000, 0x3000)
  | .sneImm _ _ => (0xF000, 0x4000)
  | .seReg _ _ => (0xF00F, 0x5000)
  | .ldImm _ _ => (0xF000, 0x6000)
  | .addImm _ _ => (0xF000, 0x7000)
  | .ldReg _ _ => (0xF00F, 0x8000)
  | .orReg _ _ => (0xF00F, 0x8001)
  | .andReg _ _ => (0xF00F, 0x8002)
  | .xorReg _ _ => (0xF00F, 0x8003)
  | .addReg _ _ => (0xF00F, 0x8004)
  | .subReg _ _ => (0xF00F, 0x8005)
  | .shrReg _ _ => (0xF00F, 0x8006)
  | .subnReg _ _ => (0xF00F, 0x8007)
  | .shlReg _ _ => (0xF00F, 0x800E)
  | .sneReg _ _ => (0xF00F, 0x9000)
  | .ldI _ => (0xF000, 0xA000)
  | .jpV0 _ => (0xF000, 0xB000)
  | .rnd _ _ => (0xF000, 0xC000)
  | .drw _ _ _ => (0xF000, 0xD000)
  | .skp _ => (0xF0FF, 0xE09E)
  | .sknp _ => (0xF0FF, 0xE0A1)
  | .ldVxDt _ => (0xF0FF, 0xF007)
  | .ldVxK _ => (0xF0FF, 0xF00A)
  | .ldDtVx _ => (0xF0FF, 0xF015)
  | .ldStVx _ => (0xF0FF, 0xF018)
  | .addIVx _ => (0xF0FF, 0xF01E)
  | .ldFVx _ => (0xF0FF, 0xF029)
  | .ldBVx _ => (0xF0FF, 0xF033)
  | .ldMemVx _ => (0xF0FF, 0xF055)
  | .ldVxMem _ => (0xF0FF, 0xF065)

/-- The instruction word that the low `nbits` bits of `w` are: every instruction is one 16-bit word, so bit 0 of the table is bit 0 of `op`. -/
def tableWord (nbits w : Nat) : Word := BitVec.ofNat 16 (w % 2 ^ nbits)

/-- What the decoder reads from an opcode-table word laid out in memory, high byte first. -/
def decodeTableWord (nbits w : Nat) : Option Instr :=
  match decode [highByte (tableWord nbits w), lowByte (tableWord nbits w)] with
  | .ok (i, _) => some i
  | .error _ => none

end Sys2Proof
end

