-- ==== Sys2Proof/Machine/State.lean ====
section
/-! DEFINITION. The state of the core (10_state), the reasons a step stops, and the state after RESET. -/

namespace Sys2Proof.Machine

/-- Why a step stops with a fault. The terminal faults MEM_RANGE and STACK_OVERFLOW are NOT here: the spec describes their
entry (60_exceptions R183), so they are next states with the latch set. -/
inductive Fault where
  /-- `ROM_TOO_LARGE` (60_exceptions R180, R184): raised by RESET when the program image is longer than `MEM_SIZE - PROGRAM_START`.
  RESET then produces no machine. Safe: nothing can be proved of a machine that does not exist. -/
  | romTooLarge (length : Nat)
deriving DecidableEq, Repr

/-- Why a step has no meaning. -/
inductive Refusal where
  /-- An arm of exec without a meaning. Safe: nothing follows from it. No arm answers it. -/
  | notModelled (mnemonic : String)
  /-- Raised by RESET when its parameters break a constraint of 00_scope R4 (`FONT_BASE + 80 <= PROGRAM_START`, `WIDTH >= 1`,
  `HEIGHT >= 1`); the spec defines RESET for no such parameters. Safe: nothing follows from it (log 8). -/
  | illegalParameters
deriving DecidableEq, Repr

/-- The record in the fault latch: cause, `pc0`, lowest offending address (10_state R31, 60_exceptions R180, R183). -/
inductive LatchedFault where
  /-- `MEM_RANGE`: an access range of the instruction at `pc0` passes 4095; `addr` is the lowest address above 4095 it names. -/
  | memRange (pc0 : Word) (addr : Nat)
  /-- `STACK_OVERFLOW`: CALL at `pc0` found a stack of finite capacity full (decision D17). It records no address (log 7). -/
  | stackOverflow (pc0 : Word)
deriving DecidableEq, Repr

/-- What an operation emits toward the host (10_state R35, R36). -/
inductive Event where
  /-- `DIAG_UNKNOWN_OPCODE(op, pc0)`. -/
  | unknownOpcode (op pc0 : Word)
  /-- `DIAG_EMPTY_RETURN(pc0)`. -/
  | emptyReturn (pc0 : Word)
  /-- `BEEP_STOP`. -/
  | beepStop
deriving DecidableEq, Repr

/-- Memory as (address, byte) pairs: addresses strictly rising, no entry equal to what an unlisted address reads as (Ops.lean). -/
abbrev Memory := List Host.Cell

/-- The display: a list of rows, each a list of pixels, row 0 at the top and column 0 at the left (10_state R28). -/
abbrev Grid := List (List Bool)

/-- The state. The first twelve fields are the spec's (10_state R20 to R31, R39); the last four are the model's own and hold the
inputs and outputs of the operations (logs 2, 3, 4). -/
structure State where
  /-- `V[0]` to `V[15]` (R20); `V[15]` is VF (R21). -/
  v : Vector Byte 16
  /-- The program counter (R22). -/
  pc : Word
  /-- The index register `I` (R23). -/
  i : Word
  /-- The return addresses, oldest first (R24). -/
  stack : List Word
  /-- The delay timer `DT` (R25). -/
  dt : Byte
  /-- The sound timer `ST` (R26). -/
  st : Byte
  /-- Memory (R27). -/
  mem : Memory
  /-- The display (R28). -/
  disp : Grid
  /-- The dirty flag (R29). -/
  dirty : Bool
  /-- The quirks record and the other parameters of RESET (R30, R39). -/
  config : Config
  /-- The fault latch (R31). -/
  fault : Option LatchedFault
  /-- The inputs of the CYCLE under way (R34; log 3). -/
  input : CycleInput
  /-- The operations the host invokes next, oldest first; past its end the operations are the free values `Config.freeOp` (log 2). -/
  host : List HostOp
  /-- The events emitted so far, oldest first (R35, R36; log 4). -/
  events : List Event
  /-- How many free values have been taken (logs 2, 3). -/
  freeCount : Nat
deriving DecidableEq, Repr

/-- The machine right after RESET with an empty program image and the default parameters (10_state R39, 70_reset R200, R201; log 1).
Memory lists nothing: an unlisted address reads as its reset contents. -/
def State.reset : State :=
  { v := Vector.replicate 16 0
    pc := 0x200
    i := 0
    stack := []
    dt := 0
    st := 0
    mem := []
    disp := List.replicate 32 (List.replicate 64 false)
    dirty := false
    config := Config.default
    fault := none
    input := { key := none, draw := 0 }
    host := []
    events := []
    freeCount := 0 }

end Sys2Proof.Machine
end

