-- ==== Sys2Proof/Machine/Ops.lean ====
section
/-! DEFINITION. The shared operations over registers, memory, stack, events and display, the range check and the entry of the terminal
fault (60_exceptions R183). There is no return from a fault beside it: only RESET clears the latch (R183, R192). -/

namespace Sys2Proof.Machine

/-- The result of a meaning. -/
abbrev Result := Host.Outcome State Fault Refusal

/-! ### Registers -/

/-- `VF` is register 15 (10_state R21). -/
abbrev vf : RegIdx := 15

/-- `V[r]`. -/
def State.reg (s : State) (r : RegIdx) : Byte := s.v[r.val]

/-- `V[r] <- b`. -/
def State.setReg (s : State) (r : RegIdx) (b : Byte) : State := { s with v := s.v.set r.val b r.isLt }

/-- `pc <- a`. -/
def State.setPc (s : State) (a : Word) : State := { s with pc := a }

/-- `I <- a`. -/
def State.setI (s : State) (a : Word) : State := { s with i := a }

/-- `DT <- b`. -/
def State.setDt (s : State) (b : Byte) : State := { s with dt := b }

/-- `ST <- b`. -/
def State.setSt (s : State) (b : Byte) : State := { s with st := b }

/-- The address the instruction being executed was fetched from: `pc` has been advanced by 2 (00_scope R7, 30_encoding R70; log 5). -/
def State.pc0 (s : State) : Word := s.pc - 2

/-- `emit e` (10_state R35, R36; log 4). -/
def State.emit (s : State) (e : Event) : State := { s with events := s.events ++ [e] }

/-! ### The stack (10_state R24) -/

/-- `push(a)`: the newest entry is the last. -/
def State.push (s : State) (a : Word) : State := { s with stack := s.stack ++ [a] }

/-- The stack without its newest entry. -/
def State.dropTop (s : State) : State := { s with stack := s.stack.dropLast }

/-- A finite stack with `STACK_CAPACITY` entries or more (decision D17); the unbounded stack is never full. -/
def State.stackFull (s : State) : Bool :=
  match s.config.stackCapacity with
  | none => false
  | some c => decide (c ≤ s.stack.length)

/-! ### The terminal fault -/

/-- The address of the faulting instruction. -/
def LatchedFault.pc0 : LatchedFault → Word
  | .memRange pc0 _ => pc0
  | .stackOverflow pc0 => pc0

/-- `raise Fault(cause, pc0, addr)`: the latch is set and pc goes back to `pc0`; nothing else changes (60_exceptions R183). -/
def State.raise (s : State) (f : LatchedFault) : State := { s with fault := some f, pc := f.pc0 }

/-! ### The font (70_reset R202) -/

/-- The 80 bytes of the font, digits 0 to F (70_reset R202, decision D3; log 11). -/
def font : List Byte :=
  [0xF0, 0x90, 0x90, 0x90, 0xF0, 0x20, 0x60, 0x20, 0x20, 0x70, 0xF0, 0x10, 0xF0, 0x80, 0xF0, 0xF0, 0x10, 0xF0, 0x10, 0xF0]
  ++ [0x90, 0x90, 0xF0, 0x10, 0x10, 0xF0, 0x80, 0xF0, 0x10, 0xF0, 0xF0, 0x80, 0xF0, 0x90, 0xF0, 0xF0, 0x10, 0x20, 0x40, 0x40]
  ++ [0xF0, 0x90, 0xF0, 0x90, 0xF0, 0xF0, 0x90, 0xF0, 0x10, 0xF0, 0xF0, 0x90, 0xF0, 0x90, 0x90, 0xE0, 0x90, 0xE0, 0x90, 0xE0]
  ++ [0xF0, 0x80, 0x80, 0x80, 0xF0, 0xE0, 0x90, 0x90, 0x90, 0xE0, 0xF0, 0x80, 0xF0, 0x80, 0xF0, 0xF0, 0x80, 0xF0, 0x80, 0x80]

/-- `FONT[k]`. -/
def fontByte (k : Nat) : Byte := font.getD k 0

/-! ### Memory (20_memory) -/

/-- What an address that memory does not list reads as: the reset contents with the default FONT_BASE and no program (70_reset R201;
log 9). -/
def Memory.unlisted (a : Nat) : Byte :=
  if 0x050 ≤ a ∧ a < 0x050 + fontSize then fontByte (a - 0x050) else 0

/-- The byte listed for an address. -/
def Memory.lookup : Memory → Nat → Option Byte
  | [], _ => none
  | (k, b) :: rest, a => if k = a then some b else Memory.lookup rest a

/-- `Mem[a]` (20_memory R51). -/
def Memory.read (m : Memory) (a : Nat) : Byte := (m.lookup a).getD (Memory.unlisted a)

/-- A cell before a list, left out where it equals what the unlisted address reads as. -/
def Memory.cons (a : Nat) (b : Byte) (m : Memory) : Memory :=
  if b = Memory.unlisted a then m else (a, b) :: m

/-- `Mem[a] <- b` in the rising list. -/
def Memory.insert : Memory → Nat → Byte → Memory
  | [], a, b => Memory.cons a b []
  | (k, c) :: rest, a, b =>
    if a < k then Memory.cons a b ((k, c) :: rest)
    else if a = k then Memory.cons a b rest
    else (k, c) :: Memory.insert rest a b

/-- `MemWrite(a, 1, b)` (20_memory R51). There is no cell above 4095; every instruction checks its whole range before it writes. -/
def Memory.write (m : Memory) (a : Nat) (b : Byte) : Memory :=
  if a < memSize then m.insert a b else m

/-- The canonical form: addresses strictly rising and below 4096, no entry equal to what the unlisted address reads as. -/
abbrev Memory.wf (m : Memory) : Prop :=
  m.Pairwise (fun c d => c.1 < d.1) ∧ ∀ c ∈ m, c.1 < memSize ∧ c.2 ≠ Memory.unlisted c.1

/-- The bytes at `a`, `a + 1`, ..., `n` of them. -/
def Memory.readBytes (m : Memory) (a n : Nat) : List Byte := (List.range n).map (fun k => m.read (a + k))

/-- The bytes written at `a`, `a + 1`, ..., in ascending order (20_memory R53). -/
def Memory.writeBytes : Memory → Nat → List Byte → Memory
  | m, _, [] => m
  | m, a, b :: bs => Memory.writeBytes (m.write a b) (a + 1) bs

/-- The range `[base, base + len - 1]` lies inside memory; an empty range does (20_memory R51, R63). Unbounded naturals, no wrap. -/
def rangeOk (base len : Nat) : Bool := len == 0 || decide (base + len ≤ memSize)

/-- The whole range an instruction names at I is checked before any byte moves: past 4095 it raises MEM_RANGE with the lowest offending
address and the instruction writes nothing (20_memory R51, 60_exceptions R183). -/
def State.checked (s : State) (len : Nat) (effect : State) : State :=
  if rangeOk s.i.toNat len then effect else s.raise (.memRange s.pc0 (max s.i.toNat memSize))

/-- Memory with `bytes` stored at I. -/
def State.storeAtI (s : State) (bytes : List Byte) : State := { s with mem := s.mem.writeBytes s.i.toNat bytes }

/-- `V[0..n-1]`, the bytes register dump stores (45_memory_index R150). -/
def State.regBytes (s : State) (n : Nat) : List Byte := (List.range n).map (fun k => s.reg (Fin.ofNat 16 k))

/-- `V[0..n-1] <- Mem[base..]`, ascending (45_memory_index R151). -/
def State.loadRegs (s : State) (base : Nat) : Nat → State
  | 0 => s
  | n + 1 => (s.loadRegs base n).setReg (Fin.ofNat 16 n) (s.mem.read (base + n))

/-- The increment of `Q_MEM_INCR_I`: I past the bytes moved when the toggle is true, unchanged when false (45_memory_index R150, R151). -/
def State.bumpI (s : State) (n : Nat) : State :=
  if s.config.quirks.memIncrI then s.setI (s.i + BitVec.ofNat 16 n) else s

/-! ### Fetch (30_encoding R70) -/

/-- Both bytes of the fetch at `pc` lie inside memory. -/
def State.fetchOk (s : State) : Bool := decide (s.pc.toNat + 1 < memSize)

/-- The two bytes at `pc`. -/
def State.fetchBytes (s : State) : List Byte := s.mem.readBytes s.pc.toNat 2

/-- The address a failed fetch records: `max(pc0, 4096)`. -/
def State.fetchFault (s : State) : LatchedFault := .memRange s.pc (max s.pc.toNat memSize)

/-! ### The display (10_state R28) -/

/-- The display with every cell false. -/
def Grid.blank (width height : Nat) : Grid := List.replicate height (List.replicate width false)

/-- `Disp[r][c]`; no cell lies outside the grid. -/
def Grid.pixel (g : Grid) (r c : Nat) : Bool := ((g[r]?).bind (fun row => row[c]?)).getD false

/-- `Disp[r][c] <- b`. -/
def Grid.setPixel (g : Grid) (r c : Nat) (b : Bool) : Grid := g.modify r (fun row => row.set c b)

/-- `HEIGHT` rows of `WIDTH` columns (10_state R28). -/
abbrev Grid.shaped (g : Grid) (width height : Nat) : Prop := g.length = height ∧ ∀ row ∈ g, row.length = width

end Sys2Proof.Machine
end

