-- ==== Sys2Proof/Machine/Operands.lean ====
section
/-! DEFINITION. The operand forms (30_encoding R77): where the quirks and the fields say an operand comes from. -/

namespace Sys2Proof.Machine

/-- A 12-bit immediate, zero-extended to 16 bits (30_encoding R77). -/
def addr12 (nnn : BitVec 12) : Word := nnn.setWidth 16

/-- The value a shift moves: `VY` under `Q_SHIFT_VY`, else `VX` (43_alu R136, R138). -/
def State.shiftSource (s : State) (x y : RegIdx) : Byte :=
  if s.config.quirks.shiftVy then s.reg y else s.reg x

/-- The register the offset jump adds: `VX` with `X = nnn[11:8]` under `Q_JUMP_VX`, else `V0` (40_control_flow R103). -/
def State.jumpReg (s : State) (nnn : BitVec 12) : RegIdx :=
  if s.config.quirks.jumpVx then (nnn.extractLsb' 8 4).toFin else 0

/-- The target of the offset jump, a 16-bit sum (40_control_flow R103, decision D6). -/
def State.jumpTarget (s : State) (nnn : BitVec 12) : Word :=
  addr12 nnn + (s.reg (s.jumpReg nnn)).setWidth 16

/-- The address of a glyph: `FONT_BASE + 5 * v[3:0]` (47_rnd R171, decision D13). -/
def State.glyphAddr (s : State) (v : Byte) : Word :=
  BitVec.ofNat 16 (s.config.fontBase + 5 * (v.extractLsb' 0 4).toNat)

/-- The three decimal digits of a byte: hundreds, tens, units (45_memory_index R153). -/
def bcdDigits (v : Byte) : List Byte :=
  [BitVec.ofNat 8 (v.toNat / 100), BitVec.ofNat 8 (v.toNat / 10 % 10), BitVec.ofNat 8 (v.toNat % 10)]

/-- The number of a key as a byte, `zext_8(key_in)` (46_keys R160 to R162). -/
def keyByte (k : Key) : Byte := BitVec.ofNat 8 k.val

/-- The reported key equals `VX`, compared on all 8 bits; `none` equals nothing (46_keys R161, decision D14). -/
def State.keyIs (s : State) (x : RegIdx) : Bool :=
  match s.input.key with
  | none => false
  | some k => keyByte k == s.reg x

/-- A skip: `pc <- pc + 2` when the condition holds (41_skips). -/
def State.skipIf (s : State) (c : Bool) : State := if c then s.setPc (s.pc + 2) else s

end Sys2Proof.Machine
end

