-- ==== Sys2Proof/Machine/Flags.lean ====
section
/-! DEFINITION. The flag computations (10_state R21, 43_alu R129) and the order of the two writes (43_alu R139). -/

namespace Sys2Proof.Machine

/-- A flag as the 8-bit number 0 or 1 (10_state R21). -/
def flagByte (b : Bool) : Byte := if b then 1 else 0

/-- The carry of an addition: the true sum exceeds 255 (43_alu R134). -/
def carryOf (a b : Byte) : Bool := decide (255 < a.toNat + b.toNat)

/-- No borrow: the minuend is at least the subtrahend (43_alu R135, R137). -/
def noBorrow (minuend subtrahend : Byte) : Bool := decide (subtrahend.toNat ≤ minuend.toNat)

/-- The bit a right shift moves out, bit 0 of the original value (43_alu R136). -/
def shiftedOutRight (v : Byte) : Bool := v.getLsbD 0

/-- The bit a left shift moves out, bit 7 of the original value (43_alu R138). -/
def shiftedOutLeft (v : Byte) : Bool := v.getLsbD 7

/-- `VF <- flag`. -/
def State.setFlag (s : State) (flag : Bool) : State := s.setReg vf (flagByte flag)

/-- The result to `VX`, then the flag to `VF`: with `X = 15` the flag stays (43_alu R139, decision D7). -/
def State.setResultFlag (s : State) (x : RegIdx) (result : Byte) (flag : Bool) : State :=
  (s.setReg x result).setFlag flag

end Sys2Proof.Machine
end

