-- ==== Sys2Proof/Machine/Alu.lean ====
section
/-! DEFINITION. Register-to-register arithmetic and logic (43_alu). -/

namespace Sys2Proof.Machine

/-- `LD Vx, Vy` (43_alu R130). -/
def execLdReg (x y : RegIdx) (s : State) : Result := .next (s.setReg x (s.reg y))

/-- `OR Vx, Vy` (43_alu R131). -/
def execOrReg (x y : RegIdx) (s : State) : Result := .next (s.setReg x (s.reg x ||| s.reg y))

/-- `AND Vx, Vy` (43_alu R132). -/
def execAndReg (x y : RegIdx) (s : State) : Result := .next (s.setReg x (s.reg x &&& s.reg y))

/-- `XOR Vx, Vy` (43_alu R133). -/
def execXorReg (x y : RegIdx) (s : State) : Result := .next (s.setReg x (s.reg x ^^^ s.reg y))

/-- `ADD Vx, Vy` (43_alu R134). -/
def execAddReg (x y : RegIdx) (s : State) : Result :=
  .next (s.setResultFlag x (s.reg x + s.reg y) (carryOf (s.reg x) (s.reg y)))

/-- `SUB Vx, Vy` (43_alu R135). -/
def execSubReg (x y : RegIdx) (s : State) : Result :=
  .next (s.setResultFlag x (s.reg x - s.reg y) (noBorrow (s.reg x) (s.reg y)))

/-- `SHR Vx, Vy` (43_alu R136). -/
def execShrReg (x y : RegIdx) (s : State) : Result :=
  .next (s.setResultFlag x (s.shiftSource x y >>> 1) (shiftedOutRight (s.shiftSource x y)))

/-- `SUBN Vx, Vy` (43_alu R137). -/
def execSubnReg (x y : RegIdx) (s : State) : Result :=
  .next (s.setResultFlag x (s.reg y - s.reg x) (noBorrow (s.reg y) (s.reg x)))

/-- `SHL Vx, Vy` (43_alu R138). -/
def execShlReg (x y : RegIdx) (s : State) : Result :=
  .next (s.setResultFlag x (s.shiftSource x y <<< 1) (shiftedOutLeft (s.shiftSource x y)))

end Sys2Proof.Machine
end

