-- ==== Sys2Proof/Machine/ControlFlow.lean ====
section
/-! DEFINITION. JP, CALL, RET and JP V0 (40_control_flow). -/

namespace Sys2Proof.Machine

/-- `JP nnn` (40_control_flow R100). -/
def execJp (nnn : BitVec 12) (s : State) : Result := .next (s.setPc (addr12 nnn))

/-- CALL to a target: push the advanced pc, then jump; a full finite stack raises STACK_OVERFLOW instead (decision D17). -/
def State.callTo (s : State) (target : Word) : State :=
  if s.stackFull then s.raise (.stackOverflow s.pc0) else (s.push s.pc).setPc target

/-- `CALL nnn` (40_control_flow R101). -/
def execCall (nnn : BitVec 12) (s : State) : Result := .next (s.callTo (addr12 nnn))

/-- RET: pop into pc, or the diagnostic on an empty stack (40_control_flow R102, 60_exceptions R182). -/
def State.returned (s : State) : State :=
  match s.stack.getLast? with
  | some a => s.dropTop.setPc a
  | none => s.emit (.emptyReturn s.pc0)

/-- `RET` (40_control_flow R102). -/
def execRet (s : State) : Result := .next s.returned

/-- `JP V0, nnn` (40_control_flow R103). -/
def execJpV0 (nnn : BitVec 12) (s : State) : Result := .next (s.setPc (s.jumpTarget nnn))

end Sys2Proof.Machine
end

