-- ==== Sys2Proof/Machine/Sprite.lean ====
section
/-! DEFINITION. The sprite-draw XOR-blit engine (44_display R141). -/

namespace Sys2Proof.Machine

/-- What a draw changes as it goes: the grid and whether a set bit has met a set pixel. -/
structure Canvas where
  grid : Grid
  collided : Bool
deriving DecidableEq, Repr

/-- A set sprite bit lands on a cell: a set pixel is cleared and collides, a clear pixel is set. -/
def Canvas.flip (c : Canvas) (row col : Nat) : Canvas :=
  { grid := c.grid.setPixel row col (!c.grid.pixel row col)
    collided := c.collided || c.grid.pixel row col }

/-- The bits of a sprite byte from the left, bit 7 first (decision D8). -/
def spriteBits (b : Byte) : List Bool := (List.range 8).map (fun k => b.getLsbD (7 - k))

/-- One sprite row from column `col` on; the row stops at the right edge. -/
def drawBits (width row : Nat) : Nat → List Bool → Canvas → Canvas
  | _, [], c => c
  | col, bit :: bits, c =>
    if width ≤ col then c
    else drawBits width row (col + 1) bits (if bit then c.flip row col else c)

/-- The rows of a sprite from row `row` on; the draw stops at the bottom edge. -/
def drawRows (width height x0 : Nat) : Nat → List Byte → Canvas → Canvas
  | _, [], c => c
  | row, b :: bytes, c =>
    if height ≤ row then c
    else drawRows width height x0 (row + 1) bytes (drawBits width row x0 (spriteBits b) c)

/-- The canvas after a sprite of `n` rows at I is drawn at (VX mod WIDTH, VY mod HEIGHT). -/
def State.drawnCanvas (s : State) (x y : RegIdx) (n : Nat) : Canvas :=
  drawRows s.config.width s.config.height ((s.reg x).toNat % s.config.width) ((s.reg y).toNat % s.config.height)
    (s.mem.readBytes s.i.toNat n) { grid := s.disp, collided := false }

/-- The display with a new grid, and the dirty flag raised (10_state R29). -/
def State.setDisp (s : State) (g : Grid) : State := { s with disp := g, dirty := true }

/-- The effect of DRW: the coordinates are read first, VF ends as the collision flag, the display is dirty. -/
def State.drawSprite (s : State) (x y : RegIdx) (n : Nat) : State :=
  (s.setDisp (s.drawnCanvas x y n).grid).setFlag (s.drawnCanvas x y n).collided

end Sys2Proof.Machine
end

