-- ==== Sys2Proof/Machine/Display.lean ====
section
/-! DEFINITION. CLS and DRW (44_display). -/

namespace Sys2Proof.Machine

/-- `CLS` (44_display R140). -/
def execCls (s : State) : Result := .next (s.setDisp (Grid.blank s.config.width s.config.height))

/-- `DRW Vx, Vy, n` (44_display R141); all `n` bytes are range-checked (decision D9). -/
def execDrw (x y : RegIdx) (n : BitVec 4) (s : State) : Result := .next (s.checked n.toNat (s.drawSprite x y n.toNat))

end Sys2Proof.Machine
end

