-- ==== Sys2Proof/Machine/ImmIndex.lean ====
section
/-! DEFINITION. Immediate load and add, index load (42_immediate_index). -/

namespace Sys2Proof.Machine

/-- `LD Vx, nn` (42_immediate_index R120). -/
def execLdImm (x : RegIdx) (nn : Byte) (s : State) : Result := .next (s.setReg x nn)

/-- `ADD Vx, nn`, no flag (42_immediate_index R121). -/
def execAddImm (x : RegIdx) (nn : Byte) (s : State) : Result := .next (s.setReg x (s.reg x + nn))

/-- `LD I, nnn` (42_immediate_index R122). -/
def execLdI (nnn : BitVec 12) (s : State) : Result := .next (s.setI (addr12 nnn))

end Sys2Proof.Machine
end

