-- ==== Sys2Proof/Machine/KeysTimers.lean ====
section
/-! DEFINITION. Key and timer instructions (46_keys_timers). -/

namespace Sys2Proof.Machine

/-- The key wait: back to `pc0` while no key is reported (46_keys_timers R160). -/
def State.awaitKey (s : State) (x : RegIdx) : State :=
  match s.input.key with
  | none => s.setPc (s.pc - 2)
  | some k => s.setReg x (keyByte k)

/-- `LD Vx, K` (46_keys_timers R160). -/
def execLdVxK (x : RegIdx) (s : State) : Result := .next (s.awaitKey x)

/-- `SKP Vx` (46_keys_timers R161). -/
def execSkp (x : RegIdx) (s : State) : Result := .next (s.skipIf (s.keyIs x))

/-- `SKNP Vx` (46_keys_timers R162). -/
def execSknp (x : RegIdx) (s : State) : Result := .next (s.skipIf (!s.keyIs x))

/-- `LD Vx, DT` (46_keys_timers R163). -/
def execLdVxDt (x : RegIdx) (s : State) : Result := .next (s.setReg x s.dt)

/-- `LD DT, Vx` (46_keys_timers R164). -/
def execLdDtVx (x : RegIdx) (s : State) : Result := .next (s.setDt (s.reg x))

/-- `LD ST, Vx`: no start-beep and no stop-beep (46_keys_timers R165, conflicts C3 and C4). -/
def execLdStVx (x : RegIdx) (s : State) : Result := .next (s.setSt (s.reg x))

end Sys2Proof.Machine
end

