-- ==== Sys2Proof/Machine/MemIndex.lean ====
section
/-! DEFINITION. Memory through the index register (45_memory_index). -/

namespace Sys2Proof.Machine

/-- `LD [I], Vx` (45_memory_index R150). -/
def execLdMemVx (x : RegIdx) (s : State) : Result :=
  .next (s.checked (x.val + 1) ((s.storeAtI (s.regBytes (x.val + 1))).bumpI (x.val + 1)))

/-- `LD Vx, [I]` (45_memory_index R151). -/
def execLdVxMem (x : RegIdx) (s : State) : Result :=
  .next (s.checked (x.val + 1) ((s.loadRegs s.i.toNat (x.val + 1)).bumpI (x.val + 1)))

/-- `ADD I, Vx` with a flag that is always 1 where it is written (45_memory_index R152, conflict C8). -/
def State.addToI (s : State) (x : RegIdx) : State :=
  if s.config.quirks.iaddVf then (s.setI (s.i + (s.reg x).setWidth 16)).setFlag true
  else s.setI (s.i + (s.reg x).setWidth 16)

/-- `ADD I, Vx` (45_memory_index R152). -/
def execAddIVx (x : RegIdx) (s : State) : Result := .next (s.addToI x)

/-- `LD B, Vx` (45_memory_index R153). -/
def execLdBVx (x : RegIdx) (s : State) : Result := .next (s.checked 3 (s.storeAtI (bcdDigits (s.reg x))))

end Sys2Proof.Machine
end

