-- ==== Sys2Proof/Machine/RndFontSys.lean ====
section
/-! DEFINITION. RND, LD F and SYS (47_rnd_font_sys). -/

namespace Sys2Proof.Machine

/-- `RND Vx, nn`: the drawn byte is an input of the cycle (47_rnd_font_sys R170; log 3). -/
def execRnd (x : RegIdx) (nn : Byte) (s : State) : Result := .next (s.setReg x (s.input.draw &&& nn))

/-- `LD F, Vx` (47_rnd_font_sys R171). -/
def execLdFVx (x : RegIdx) (s : State) : Result := .next (s.setI (s.glyphAddr (s.reg x)))

/-- An unknown word: the diagnostic and nothing else (30_encoding R78, 60_exceptions R181). -/
def State.unknownWord (s : State) (op : Word) : State := s.emit (.unknownOpcode op s.pc0)

/-- `SYS nnn` executes as an unknown word (47_rnd_font_sys R172). -/
def execSys (nnn : BitVec 12) (s : State) : Result := .next (s.unknownWord (encodeNNN 0x0 nnn))

end Sys2Proof.Machine
end

