-- ==== Sys2Proof/Machine/HostOps.lean ====
section
/-! DEFINITION. The four operations the host invokes: CYCLE (30_encoding R70), TICK (60_exceptions R190, R191), CLEAR_DIRTY
(10_state R37) and RESET (70_reset R200); which of them comes next; and what the host can observe (10_state R37, R38). -/

namespace Sys2Proof.Machine

/-! ### The host's schedule -/

/-- The operation the host invokes next: the head of the schedule, and past its end a free value (00_scope R8, 10_state R33; log 2). -/
def State.nextOp (s : State) : HostOp := s.host.headD (Config.freeOp s.freeCount)

/-- The state with that operation taken: off the schedule, or off the free values. -/
def State.takeOp (s : State) : State :=
  { s with host := s.host.tail, freeCount := if s.host.isEmpty then s.freeCount + 1 else s.freeCount }

/-- The state when a CYCLE begins: the operation is taken and its inputs are in place (log 3). -/
def State.beginCycle (s : State) (input : CycleInput) : State := { s.takeOp with input := input }

/-! ### CYCLE -/

/-- Decode the fetched bytes, of which the word is `op`, and run the rule they select; `s.pc` has been advanced (30_encoding R70, R76, R78). -/
def runBytes (bytes : List Byte) (op : Word) (s : State) : Result :=
  match decode bytes with
  | .ok (i, _) => exec i s
  | .error _ => .next (s.unknownWord op)

/-- The word at `pc`, big-endian (20_memory R52). -/
def State.fetchWord (s : State) : Word :=
  wordOfBytes (s.mem.read s.pc.toNat) (s.mem.read (s.pc.toNat + 1))

/-- `CYCLE`, in the order of 60_exceptions R187: the latch, the fetch range, decode, execute (30_encoding R70). -/
def cycle (s : State) : Result :=
  if s.fault.isSome then .next s
  else if s.fetchOk then runBytes s.fetchBytes s.fetchWord (s.setPc (s.pc + 2))
  else .next (s.raise s.fetchFault)

/-! ### TICK -/

/-- The delay timer's part of TICK (60_exceptions R190). -/
def State.tickDelay (s : State) : State := if s.dt = 0 then s else s.setDt (s.dt - 1)

/-- The sound timer's part of TICK: the decrement that reaches zero emits BEEP_STOP (60_exceptions R190, R191). -/
def State.tickSound (s : State) : State :=
  if s.st = 0 then s
  else if s.st = 1 then (s.setSt 0).emit .beepStop
  else s.setSt (s.st - 1)

/-- `TICK` (60_exceptions R190); after a fault it does nothing (decision D20). -/
def tick (s : State) : State := if s.fault.isSome then s else s.tickDelay.tickSound

/-! ### CLEAR_DIRTY -/

/-- `CLEAR_DIRTY` (10_state R37); it works after a fault too (60_exceptions R183). -/
def clearDirty (s : State) : State := { s with dirty := false }

/-! ### RESET -/

/-- `Mem[a]` after RESET (70_reset R201). MODEL'S CHOICE (log 24): a one-byte image leaves `ROM[0]` at PROGRAM_START and 0 behind it, by
R201's equation for Mem, so that its first word is `ROM[0] : 00`, where R201's parenthesis on images shorter than 2 bytes says 0x0000. -/
def resetByte (fontBase : Nat) (rom : List Byte) (a : Nat) : Byte :=
  if programStart ≤ a ∧ a < programStart + rom.length then rom.getD (a - programStart) 0
  else if fontBase ≤ a ∧ a < fontBase + fontSize then fontByte (a - fontBase)
  else 0

/-- The memory RESET leaves, in canonical form: the cells that differ from what an unlisted address reads as. -/
def Memory.ofReset (fontBase : Nat) (rom : List Byte) : Memory :=
  (List.range memSize).filterMap
    (fun a => if resetByte fontBase rom a = Memory.unlisted a then none else some (a, resetByte fontBase rom a))

/-- The machine RESET constructs (70_reset R200). What lies outside the core stays: the host's schedule, the inputs, the events already
emitted and the count of free values (logs 3, 4). -/
def State.constructed (s : State) (rom : List Byte) (config : Config) : State :=
  { v := Vector.replicate 16 0
    pc := BitVec.ofNat 16 programStart
    i := 0
    stack := []
    dt := 0
    st := 0
    mem := Memory.ofReset config.fontBase rom
    disp := Grid.blank config.width config.height
    dirty := false
    config := config
    fault := none
    input := s.input
    host := s.host
    events := s.events
    freeCount := s.freeCount }

/-- `RESET(ROM, parameters)` (70_reset R200): defined only within the length limit (60_exceptions R184) and for parameters that meet the
constraints of 00_scope R4 (log 8). -/
def resetOp (rom : List Byte) (config : Config) (s : State) : Result :=
  if ¬ config.legal then .refused .illegalParameters
  else if memSize - programStart < rom.length then .fault (.romTooLarge rom.length)
  else .next (s.constructed rom config)

/-! ### One operation of the host -/

/-- One operation, the next of the host (10_state R33; log 2). -/
def hostStep (s : State) : Result :=
  match s.nextOp with
  | .cycle input => cycle (s.beginCycle input)
  | .tick => .next (tick s.takeOp)
  | .clearDirty => .next (clearDirty s.takeOp)
  | .reset rom config => resetOp rom config s.takeOp

/-! ### What the host observes, without side effect -/

/-- The debug observable (10_state R38): registers, pc, index register, stack, timers; not memory. -/
structure DebugView where
  v : Vector Byte 16
  pc : Word
  i : Word
  stack : List Word
  dt : Byte
  st : Byte
deriving DecidableEq, Repr

/-- The debug observable of a state (10_state R38). -/
def State.debugView (s : State) : DebugView := { v := s.v, pc := s.pc, i := s.i, stack := s.stack, dt := s.dt, st := s.st }

/-- The display observable: the grid and the dirty flag (10_state R37). -/
def State.displayView (s : State) : Grid × Bool := (s.disp, s.dirty)

/-- Sound is active while ST is not zero (10_state R35). -/
def State.soundActive (s : State) : Bool := s.st != 0

/-! ### Placing an instruction -/

/-- Where the next fetch can take two bytes: `pc` itself, or the reset entry point where `pc` names no two bytes of memory (log 17). -/
def State.fetchablePc (s : State) : Word := if s.fetchOk then s.pc else BitVec.ofNat 16 programStart

/-- A CYCLE is the next scheduled operation: one with free inputs is put first where none heads the schedule (log 17). -/
def State.withCycleFirst (s : State) : State :=
  match s.host with
  | .cycle _ :: _ => s
  | _ => { s with host := .cycle (Config.freeInput s.freeCount) :: s.host, freeCount := s.freeCount + 1 }

/-- The word stored where the next CYCLE fetches it, high byte first, with what that CYCLE needs to run: no fault latched, a pc that has
two bytes, and the CYCLE itself as the next operation (log 17). -/
def placeWord (s : State) (op : Word) : State :=
  { s.withCycleFirst with
    pc := s.fetchablePc
    fault := none
    mem := s.mem.writeBytes s.fetchablePc.toNat [highByte op, lowByte op] }

end Sys2Proof.Machine
end

