-- ==== Sys2Proof/Machine/Step.lean ====
section
/-! DEFINITION. One step of the machine: one operation of the host (10_state R33). -/

namespace Sys2Proof.Machine

/-- One step: the next operation of the host's schedule (HostOps.lean). -/
def step : State → Host.Outcome State Fault Refusal := hostStep

/-- The state with the instruction word of the low `nbits` bits of `w` stored where step fetches its next instruction, high byte first. -/
def State.withFetchWord (s : State) (nbits w : Nat) : State := placeWord s (tableWord nbits w)

end Sys2Proof.Machine
end

