-- ==== Sys2Proof/Safety.lean ====
section
/-! DEFINITION. What counts as a safe run, in the terms claims use: the running machine, the invariant, the frame of an instruction, and
the model's own end of a run (70_reset R212). -/

namespace Sys2Proof.Machine

/-- No fault is latched; a faulted state is never a final or successful state (60_exceptions R183, 93 U19). -/
def State.running (s : State) : Prop := s.fault = none

/-- What a latched fault says is true of the state it stands in: pc names the faulting instruction, and the recorded address lies above
4095 (60_exceptions R183, 20_memory R51). -/
def State.latchPrecise (s : State) : Prop :=
  ∀ f, s.fault = some f → f.pc0 = s.pc ∧ ∀ pc0 addr, f = .memRange pc0 addr → memSize ≤ addr

/-- The invariant: memory is canonical, the display has the shape RESET gave it, the parameters are legal, pc stays at or below 0x10FE
and every return address at or below 0x1000 (10_state R22, 40_control_flow R102), the stack keeps within its capacity, the latch is precise. -/
structure State.Inv (s : State) : Prop where
  memory : s.mem.wf
  display : s.disp.shaped s.config.width s.config.height
  parameters : s.config.legal
  pcBound : s.pc.toNat ≤ 0x10FE
  returns : ∀ a ∈ s.stack, a.toNat ≤ 0x1000
  capacity : ∀ c, s.config.stackCapacity = some c → s.stack.length ≤ c
  latch : s.latchPrecise

/-- The parts of the state beside the general registers. -/
inductive Part where
  | pc | i | stack | dt | st | mem | disp | dirty | config | fault | input | host | events | freeCount
deriving DecidableEq, Repr

/-- A part reads the same in two states; memory through the read of each byte. -/
def State.samePart (s t : State) : Part → Prop
  | .pc => t.pc = s.pc
  | .i => t.i = s.i
  | .stack => t.stack = s.stack
  | .dt => t.dt = s.dt
  | .st => t.st = s.st
  | .mem => ∀ a, t.mem.read a = s.mem.read a
  | .disp => t.disp = s.disp
  | .dirty => t.dirty = s.dirty
  | .config => t.config = s.config
  | .fault => t.fault = s.fault
  | .input => t.input = s.input
  | .host => t.host = s.host
  | .events => t.events = s.events
  | .freeCount => t.freeCount = s.freeCount

/-- From `s` to `t` nothing changes but the registers of `regs` and the parts of `parts`. -/
def State.unchangedBut (s t : State) (regs : List RegIdx) (parts : List Part) : Prop :=
  (∀ r, r ∉ regs → t.reg r = s.reg r) ∧ ∀ p, p ∉ parts → s.samePart t p

/-- The sprite `bytes` drawn with its top left corner at row `row0`, column `col0` has a set bit over the cell (`r`, `c`): one byte a row,
8 columns, bit 7 leftmost (44_display R141). -/
def spriteDot (bytes : List Byte) (row0 col0 r c : Nat) : Bool :=
  decide (row0 ≤ r ∧ col0 ≤ c ∧ c < col0 + 8) && ((bytes[r - row0]?).map (fun b => b.getLsbD (7 - (c - col0)))).getD false

/-- The model's end of a run: no fault, and the word at pc is a jump to that very address (70_reset R212). -/
def State.atSelfJump (s : State) : Prop :=
  s.running ∧ s.fetchOk = true ∧ s.fetchWord = 0x1000 + s.pc ∧ s.pc.toNat < memSize

end Sys2Proof.Machine
end

