-- ==== Sys2Proof/Certificates/Slice0/Obligations.lean ====
section
/-! DEFINITION. The statements for the provers. In every statement about exec the pc of `s` is already past the instruction
(30_encoding R70); a statement about step is about the machine as it runs. -/

namespace Sys2Proof.Claims

open Sys2Proof.Machine

/-! ### Words used by several statements -/

/-- The outcome with its next state changed. -/
def mapNext (f : State → State) : Result → Result
  | .next t => .next (f t)
  | .fault r => .fault r
  | .refused r => .refused r

/-- The row is row 1 of the opcode map. -/
def isSys : Instr → Bool
  | .sys _ => true
  | _ => false

/-- The word matches the row of the instruction: `op & mask = match` (30_encoding R76). -/
def matchesRow (op : Word) (i : Instr) : Prop := op &&& (opcodeRow i).1 = (opcodeRow i).2

/-- The words the opcode map leaves unknown beside the SYS words: the table of 30_encoding R78 from its second line on. -/
def unknownBesideSys (op : Word) : Bool :=
  (fieldOp4 op == 0x5 && fieldN op != 0)
  || (fieldOp4 op == 0x8 && [0x8#4, 0x9#4, 0xA#4, 0xB#4, 0xC#4, 0xD#4, 0xF#4].contains (fieldN op))
  || (fieldOp4 op == 0x9 && fieldN op != 0)
  || (fieldOp4 op == 0xE && !([0x9E#8, 0xA1#8].contains (fieldNN op)))
  || (fieldOp4 op == 0xF
      && !([0x07#8, 0x0A#8, 0x15#8, 0x18#8, 0x1E#8, 0x29#8, 0x33#8, 0x55#8, 0x65#8].contains (fieldNN op)))

/-- The stack can take one more entry: unbounded, or finite and not full (10_state R24, decision D17). -/
def stackHasRoom (s : State) : Prop := ∀ c, s.config.stackCapacity = some c → s.stack.length < c

/-- The column and the row a sprite is drawn at (44_display R141). -/
def spriteCol (s : State) (x : RegIdx) : Nat := (s.reg x).toNat % s.config.width
def spriteRow (s : State) (y : RegIdx) : Nat := (s.reg y).toNat % s.config.height

/-- The sprite of `n` rows at I, drawn by `DRW Vx, Vy, n` in `s`, has a set bit over the cell (`r`, `c`): byte `r - y0` of the sprite,
bit `7 - (c - x0)` of that byte (44_display R141). -/
def spriteCovers (s : State) (x y : RegIdx) (n : BitVec 4) (r c : Nat) : Prop :=
  spriteRow s y ≤ r ∧ r < spriteRow s y + n.toNat ∧ spriteCol s x ≤ c ∧ c < spriteCol s x + 8 ∧
    (s.mem.read (s.i.toNat + (r - spriteRow s y))).getLsbD (7 - (c - spriteCol s x)) = true

/-- The cell lies on the display. -/
def onDisplay (s : State) (r c : Nat) : Prop := r < s.config.height ∧ c < s.config.width

/-- How many bytes at I the instruction names (20_memory R51). -/
def accessLength : Instr → Nat
  | .drw _ _ n => n.toNat
  | .ldBVx _ => 3
  | .ldMemVx x => x.val + 1
  | .ldVxMem x => x.val + 1
  | _ => 0

/-- How many bytes at I the instruction stores (20_memory R50). -/
def storeLength : Instr → Nat
  | .ldBVx _ => 3
  | .ldMemVx x => x.val + 1
  | _ => 0

/-- The registers an instruction's rule lets it write: its destination and, where the rule says so, VF (10_state R21). -/
def regsWritten : Instr → List RegIdx
  | .ldImm x _ | .addImm x _ | .ldReg x _ | .orReg x _ | .andReg x _ | .xorReg x _ | .rnd x _ | .ldVxDt x | .ldVxK x => [x]
  | .addReg x _ | .subReg x _ | .shrReg x _ | .subnReg x _ | .shlReg x _ => [x, vf]
  | .drw _ _ _ | .addIVx _ => [vf]
  | .ldVxMem x => (List.finRange 16).filter (fun r => decide (r ≤ x))
  | _ => []

/-- The parts of the state beside registers and memory an instruction's rule lets it write; the latch (and pc back to pc0) where it can
fault. -/
def partsWritten : Instr → List Part
  | .sys _ => [.events]
  | .cls => [.disp, .dirty]
  | .ret => [.pc, .stack, .events]
  | .call _ => [.pc, .stack, .fault]
  | .jp _ | .jpV0 _ | .seImm _ _ | .sneImm _ _ | .seReg _ _ | .sneReg _ _ | .skp _ | .sknp _ | .ldVxK _ => [.pc]
  | .ldI _ | .addIVx _ | .ldFVx _ => [.i]
  | .drw _ _ _ => [.disp, .dirty, .pc, .fault]
  | .ldDtVx _ => [.dt]
  | .ldStVx _ => [.st]
  | .ldBVx _ => [.pc, .fault]
  | .ldMemVx _ | .ldVxMem _ => [.i, .pc, .fault]
  | _ => []

/-- The instruction asks for `key_in` (10_state R34). -/
def readsKey : Instr → Bool
  | .skp _ | .sknp _ | .ldVxK _ => true
  | _ => false

/-- The instruction asks for a drawn byte (47_rnd R170). -/
def readsDraw : Instr → Bool
  | .rnd _ _ => true
  | _ => false

/-- The next operation is CYCLE. -/
def cycleNext (s : State) : Bool :=
  match s.nextOp with
  | .cycle _ => true
  | _ => false

/-- The next operation is RESET. -/
def resetNext (s : State) : Bool :=
  match s.nextOp with
  | .reset _ _ => true
  | _ => false

/-- The next operation is TICK. -/
def tickNext (s : State) : Bool := decide (s.nextOp = .tick)

/-- The next operation is CLEAR_DIRTY. -/
def clearDirtyNext (s : State) : Bool := decide (s.nextOp = .clearDirty)

/-- From `s` to `t` one operation has been taken: the schedule is one shorter, or the schedule was at its end and the counter of free
values has grown by one (log 2). -/
def opTaken (s t : State) : Prop :=
  t.host = s.host.tail ∧ t.freeCount = if s.host.isEmpty then s.freeCount + 1 else s.freeCount

/-- The byte at offset `k` of what LD [I], Vx or LD B, Vx stores: a register, or a decimal digit (45_memory_index R150, R153). -/
def storedByte (s : State) (k : Nat) : Instr → Byte
  | .ldMemVx _ => s.reg (Fin.ofNat 16 k)
  | .ldBVx x => (bcdDigits (s.reg x)).getD k 0
  | _ => 0

/-- The byte at `a` after the store of `i`: the stored byte inside the stored range, the old byte outside it. -/
def byteAfterStore (i : Instr) (s : State) (a : Nat) : Byte :=
  if s.i.toNat ≤ a ∧ a < s.i.toNat + storeLength i then storedByte s (a - s.i.toNat) i else s.mem.read a

/-- The next step runs the instruction `i`: CYCLE is next, no fault is latched, and the two bytes at pc, big-endian, decode to `i`. -/
def runsNext (s : State) (i : Instr) : Prop :=
  cycleNext s = true ∧ s.running ∧ s.pc.toNat + 1 < memSize ∧
    decode [s.mem.read s.pc.toNat, s.mem.read (s.pc.toNat + 1)] = .ok (i, [])

end Sys2Proof.Claims

open Sys2Proof Sys2Proof.Machine Sys2Proof.Claims

/-! ### Encoding -/

/-- Decode and encode agree: the bytes of every well-formed instruction decode to that instruction and leave the rest (30_encoding R72 to
R77). The hexadecimal map is the spec's from general knowledge (93 GK1, log 10). -/
def Obligations.DecodeOfEncodeIsTheInstruction : Prop :=
  ∀ (i : Instr) (rest : List Byte), i.wellFormed = true → decode (encode i ++ rest) = .ok (i, rest)

/-- The other direction: a word that decodes is the word of the instruction it decodes to, which is well-formed (30_encoding R79: no bit
of a known word is dropped). The map is PRESUMED (93 GK1, log 10), the strict secondary matches are decision D10 (log 13). -/
def Obligations.EncodeOfDecodeIsTheWord : Prop :=
  ∀ (op : Word) (i : Instr), decodeWord op = some i → encodeWord i = op ∧ i.wellFormed = true

/-- The decoding procedure of 30_encoding R76: a word decodes to an instruction of a row it matches, and a word that matches one of rows
2 to 35 decodes to an instruction of that row. The hexadecimal map of R74 is the spec's from general knowledge (93 GK1; log 10, PRESUMED),
and the strict secondary matches are decision D10 (log 13, DEDUCED), not R76's own words. -/
def Obligations.DecodeSelectsTheMatchingRow : Prop :=
  (∀ (op : Word) (i : Instr), decodeWord op = some i → matchesRow op i) ∧
  (∀ (op : Word) (j : Instr), isSys j = false → matchesRow op j → ∃ i, decodeWord op = some i ∧ opcodeRow i = opcodeRow j)

/-- The unknown words are exactly those of 30_encoding R78's table: its first line decodes to SYS, the others to nothing. Strictness is the
spec's decision D10, SYS decision D11 (logs 13, 14). -/
def Obligations.UnknownWordsAreExactlyTheTable : Prop :=
  (∀ op : Word, decodeWord op = none ↔ unknownBesideSys op = true) ∧
  (∀ (op : Word) (nnn : BitVec 12),
    decodeWord op = some (.sys nnn) ↔ (fieldOp4 op = 0 ∧ op ≠ 0x00E0#16 ∧ op ≠ 0x00EE#16 ∧ nnn = fieldNNN op))

/-- Words written out from the spec's patterns decode to what they stand for (95_test_vectors Part 4). Every one rests on the PRESUMED
opcode map (93 GK1, log 10), and that 5AB1 is no instruction on decision D10 (log 13). -/
def Obligations.WrittenOutWordsDecode : Prop :=
  decodeTableWord 16 0x00E0 = some .cls ∧ decodeTableWord 16 0x00EE = some .ret ∧ decodeTableWord 16 0x1ABC = some (.jp 0xABC) ∧
  decodeTableWord 16 0x5AB0 = some (.seReg 0xA 0xB) ∧ decodeTableWord 16 0x5AB1 = none ∧
  decodeTableWord 16 0x8AB6 = some (.shrReg 0xA 0xB) ∧ decodeTableWord 16 0x8ABE = some (.shlReg 0xA 0xB) ∧
  decodeTableWord 16 0xD5A3 = some (.drw 0x5 0xA 0x3) ∧ decodeTableWord 16 0xE1A1 = some (.sknp 0x1) ∧
  decodeTableWord 16 0xFE55 = some (.ldMemVx 0xE) ∧ decodeTableWord 16 0xFE75 = none

/-! ### The CYCLE operation -/

/-- A step runs the decoded instruction: when CYCLE is next, no fault is latched and the two bytes at pc decode to `i`, the step is exec of
`i` with the operation taken, its inputs in place and pc past the instruction (30_encoding R70; logs 2, 3). -/
def Obligations.StepRunsTheDecodedInstruction : Prop :=
  ∀ (s : State) (i : Instr) (input : CycleInput), runsNext s i → s.nextOp = .cycle input →
    step s = exec i { s with
      host := s.host.tail
      freeCount := if s.host.isEmpty then s.freeCount + 1 else s.freeCount
      input := input
      pc := s.pc + 2 }

/-- Past the end of its schedule the host goes on with free operations, any of the four, one free value a step: a step at the end of the
schedule is the step with the free operation scheduled. So every endless interleaving is an execution (00_scope R8, 93 U16); that the
operations stand in State is the model's choice (log 2). -/
def Obligations.AnExhaustedScheduleGoesOnFreely : Prop :=
  ∀ s : State, s.host = [] →
    step s = step { s with host := [Config.freeOp s.freeCount], freeCount := s.freeCount + 1 }

/-- An unknown word is logged and ignored: execution goes on at the advanced pc (30_encoding R78, 60_exceptions R181). -/
def Obligations.UnknownWordIsLoggedAndSkipped : Prop :=
  ∀ (s : State) (op : Word), cycleNext s = true → s.running → s.pc.toNat + 1 < memSize →
    decode [s.mem.read s.pc.toNat, s.mem.read (s.pc.toNat + 1)] = .error (.unknownOpcode op) →
    ∃ t, step s = .next t ∧ opTaken s t ∧ t.pc = s.pc + 2 ∧ t.events = s.events ++ [.unknownOpcode op s.pc] ∧
      s.unchangedBut t [] [.pc, .events, .host, .input, .freeCount]

/-- A fetch whose second byte lies beyond 4095 latches MEM_RANGE with `max(pc0, 4096)` and leaves pc at pc0 (30_encoding R70,
60_exceptions R183). The fault is the spec's own (decision D5, log 5). -/
def Obligations.FetchBeyondMemoryFaults : Prop :=
  ∀ s : State, cycleNext s = true → s.running → memSize ≤ s.pc.toNat + 1 →
    ∃ t, step s = .next t ∧ opTaken s t ∧ t.fault = some (.memRange s.pc (max s.pc.toNat memSize)) ∧
      s.unchangedBut t [] [.fault, .host, .input, .freeCount]

/-- Once a fault is latched, no operation but RESET changes anything of the core, except that CLEAR_DIRTY clears the dirty flag
(10_state R31, 60_exceptions R183). The latch is the spec's own (decisions D5, D20; log 5). -/
def Obligations.FaultedMachineIsFrozen : Prop :=
  ∀ s : State, s.fault ≠ none → resetNext s = false →
    ∃ t, step s = .next t ∧ opTaken s t ∧ s.unchangedBut t [] [.dirty, .host, .input, .freeCount] ∧
      t.dirty = if clearDirtyNext s then false else s.dirty

/-- Every instruction completes: exec answers a next state from every state (60_exceptions R180: nothing else in the core can fail). That a
terminal fault of CALL, DRW, LD B, LD [I] and LD Vx, [I] is a NEXT state, with the latch set as 60_exceptions R183 enters it, is the model's
reading (log 5, DEDUCED from decisions D5 and D20), not a sentence of R180. -/
def Obligations.EveryInstructionAnswersANextState : Prop :=
  ∀ (i : Instr) (s : State), ∃ t, exec i s = .next t

/-- The frame of every instruction: it changes no register, part or byte of memory beyond those its rule names. -/
def Obligations.EveryInstructionWritesOnlyWhatItsRuleNames : Prop :=
  ∀ (i : Instr) (s t : State), s.mem.wf → exec i s = .next t →
    s.unchangedBut t (regsWritten i) (.mem :: partsWritten i) ∧
    ∀ a, ¬(s.i.toNat ≤ a ∧ a < s.i.toNat + storeLength i) → t.mem.read a = s.mem.read a

/-- The key query's answer reaches only SKP, SKNP and LD Vx, K, and the drawn byte only RND: for every other instruction other inputs
change nothing but the inputs themselves (10_state R34). -/
def Obligations.InputsReachOnlyTheirInstructions : Prop :=
  ∀ (i : Instr) (s : State) (key : Option Key) (draw : Byte),
    (readsKey i = false → exec i { s with input := { s.input with key := key } } =
      mapNext (fun t => { t with input := { s.input with key := key } }) (exec i s)) ∧
    (readsDraw i = false → exec i { s with input := { s.input with draw := draw } } =
      mapNext (fun t => { t with input := { s.input with draw := draw } }) (exec i s))

/-- The events never influence a later step: an older log in front of the log changes nothing but the log (10_state R36, 93 U21; the log
of events in State is the model's choice, log 4). -/
def Obligations.EventsNeverInfluenceAStep : Prop :=
  ∀ (s : State) (older : List Event),
    step { s with events := older ++ s.events } = mapNext (fun t => { t with events := older ++ t.events }) (step s)

/-! ### Whole-machine rules -/

/-- The invariant of Safety.lean is kept by every step: canonical memory, the display's shape, legal parameters, pc at most 0x10FE, return
addresses at most 0x1000, the stack within its capacity, a precise latch (10_state R22, R24, R28, 40_control_flow R102, 60_exceptions R183). -/
def Obligations.EveryStepKeepsTheInvariant : Prop :=
  ∀ s t : State, s.Inv → step s = .next t → t.Inv

/-- The invariant holds after every RESET within its limits, from any state, whether or not that state met it (10_state R39, 70_reset R200);
and it holds in State.reset, the model's choice of one such machine (empty image, four quirks false: log 1, DESIGN CHOICE). -/
def Obligations.ResetStateMeetsTheInvariant : Prop :=
  State.reset.Inv ∧
  ∀ (s : State) (rom : List Byte) (config : Config),
    s.nextOp = .reset rom config → config.legal → rom.length ≤ memSize - programStart → ∃ t, step s = .next t ∧ t.Inv

/-- The parameters are immutable: no operation but RESET changes the quirks record or the other parameters (00_scope R9, 10_state R30). -/
def Obligations.OnlyResetChangesTheParameters : Prop :=
  ∀ s t : State, step s = .next t → resetNext s = false → t.config = s.config

/-- The display is changed only by CLS, DRW and RESET (10_state R28). -/
def Obligations.OnlyClsDrwAndResetChangeTheDisplay : Prop :=
  ∀ s t : State, step s = .next t → t.disp ≠ s.disp →
    resetNext s = true ∨ runsNext s .cls ∨ ∃ x y n, runsNext s (.drw x y n)

/-- Only CALL pushes, the pc it sees, and only RET pops, the newest entry; a RESET that succeeds empties the stack (10_state R24,
70_reset R200). -/
def Obligations.OnlyCallPushesAndOnlyRetPops : Prop :=
  ∀ s t : State, step s = .next t →
    (resetNext s = true → t.stack = []) ∧
    (resetNext s = false →
      t.stack = s.stack ∨
      (∃ nnn, runsNext s (.call nnn) ∧ t.stack = s.stack ++ [s.pc + 2]) ∨
      (∃ a, runsNext s .ret ∧ s.stack = t.stack ++ [a] ∧ t.pc = a))

/-- The dirty flag is raised only by CLS and DRW and lowered only by CLEAR_DIRTY and RESET (10_state R29). -/
def Obligations.DirtyFlagIsRaisedByDrawingAndLoweredByTheHost : Prop :=
  ∀ s t : State, step s = .next t →
    (s.dirty = false → t.dirty = true → runsNext s .cls ∨ ∃ x y n, runsNext s (.drw x y n)) ∧
    (s.dirty = true → t.dirty = false → clearDirtyNext s = true ∨ resetNext s = true)

/-- Memory is changed only by LD B, LD [I] and RESET (20_memory R58). -/
def Obligations.OnlyStoresAndResetChangeMemory : Prop :=
  ∀ s t : State, step s = .next t → t.mem ≠ s.mem →
    resetNext s = true ∨ (∃ x, runsNext s (.ldBVx x)) ∨ ∃ x, runsNext s (.ldMemVx x)

/-- BEEP_STOP is emitted by exactly the TICK that takes ST from 1 to 0 and by no other operation (60_exceptions R190, R191). That a TICK
under a latched fault emits none is decision D20 (log 5, DEDUCED); the list of events is the model's choice (log 4). -/
def Obligations.BeepStopComesFromTheDecrementToZero : Prop :=
  ∀ s t : State, step s = .next t →
    t.events.count .beepStop =
      s.events.count .beepStop + if tickNext s = true ∧ s.fault = none ∧ s.st = 1 then 1 else 0

/-! ### The other host operations -/

/-- TICK decrements each timer that is not zero, emits BEEP_STOP when ST reaches zero, and changes nothing else (60_exceptions R190). -/
def Obligations.TickCountsTheTimersDown : Prop :=
  ∀ s : State, s.nextOp = .tick → s.running →
    ∃ t, step s = .next t ∧ opTaken s t ∧ t.dt.toNat = s.dt.toNat - 1 ∧ t.st.toNat = s.st.toNat - 1 ∧
      t.events = s.events ++ (if s.st = 1 then [.beepStop] else []) ∧
      s.unchangedBut t [] [.dt, .st, .events, .host, .freeCount]

/-- CLEAR_DIRTY lowers the dirty flag and changes nothing else, in every state, after a fault too (10_state R37). -/
def Obligations.ClearDirtyLowersTheDirtyFlagOnly : Prop :=
  ∀ s : State, s.nextOp = .clearDirty →
    ∃ t, step s = .next t ∧ opTaken s t ∧ t.dirty = false ∧ s.unchangedBut t [] [.dirty, .host, .freeCount]

/-- RESET within its limits constructs the machine, from any state: memory by 70_reset R201, everything else by 10_state R39. The load
address and the font bytes are decisions D1 and D3 (logs 10, 11); that the rest of the schedule, inputs and events stay is the model's choice
(log 4), and so is the first word of a one-byte image, ROM[0] : 00 (log 24). -/
def Obligations.ResetConstructsTheMachine : Prop :=
  ∀ (s : State) (rom : List Byte) (config : Config),
    s.nextOp = .reset rom config → config.legal → rom.length ≤ memSize - programStart →
    ∃ t, step s = .next t ∧ (∀ r, t.reg r = 0) ∧ t.pc = 0x200 ∧ t.i = 0 ∧ t.stack = [] ∧ t.dt = 0 ∧ t.st = 0 ∧
      t.disp.shaped config.width config.height ∧ (∀ r c, t.disp.pixel r c = false) ∧ t.dirty = false ∧ t.fault = none ∧
      t.config = config ∧ opTaken s t ∧ t.events = s.events ∧ t.input = s.input ∧ t.mem.wf ∧
      (∀ k, k < fontSize → t.mem.read (config.fontBase + k) = font.getD k 0) ∧
      (∀ k, k < rom.length → t.mem.read (0x200 + k) = rom.getD k 0) ∧
      (∀ a, a < memSize → ¬(config.fontBase ≤ a ∧ a < config.fontBase + fontSize) →
        ¬(0x200 ≤ a ∧ a < 0x200 + rom.length) → t.mem.read a = 0)

/-- RESET with a program image longer than `MEM_SIZE - PROGRAM_START` produces no machine and reports ROM_TOO_LARGE (60_exceptions R184,
decision D19). -/
def Obligations.ResetRejectsATooLongImage : Prop :=
  ∀ (s : State) (rom : List Byte) (config : Config),
    s.nextOp = .reset rom config → config.legal → memSize - programStart < rom.length →
    step s = .fault (.romTooLarge rom.length)

/-- RESET with parameters outside the constraints of 00_scope R4 is refused by name: the model's choice (log 8). -/
def Obligations.ResetRefusesIllegalParameters : Prop :=
  ∀ (s : State) (rom : List Byte) (config : Config),
    s.nextOp = .reset rom config → ¬config.legal → step s = .refused .illegalParameters

/-- State.reset is what RESET with an empty image and the default parameters leaves (70_reset R200; the four quirk values are the model's
choice, log 1). -/
def Obligations.ResetStateIsTheEmptyImageReset : Prop :=
  step { State.reset with host := [.reset [] Config.default] } = .next State.reset

/-! ### Control flow -/

/-- JP sets pc and nothing else (40_control_flow R100). -/
def Obligations.JumpSetsPc : Prop :=
  ∀ (nnn : BitVec 12) (s : State),
    ∃ t, exec (.jp nnn) s = .next t ∧ t.pc.toNat = nnn.toNat ∧ s.unchangedBut t [] [.pc]

/-- CALL pushes the advanced pc and jumps (40_control_flow R101); with the unbounded stack there is always room. -/
def Obligations.CallPushesThePcAndJumps : Prop :=
  ∀ (nnn : BitVec 12) (s : State), stackHasRoom s →
    ∃ t, exec (.call nnn) s = .next t ∧ t.stack = s.stack ++ [s.pc] ∧ t.pc.toNat = nnn.toNat ∧ s.unchangedBut t [] [.pc, .stack]

/-- CALL on a full stack of finite capacity latches STACK_OVERFLOW and drops nothing (60_exceptions R180, decision D17; log 7). -/
def Obligations.CallOnAFullStackFaults : Prop :=
  ∀ (nnn : BitVec 12) (s : State), ¬stackHasRoom s →
    ∃ t, exec (.call nnn) s = .next t ∧ t.fault = some (.stackOverflow (s.pc - 2)) ∧ t.pc = s.pc - 2 ∧
      s.unchangedBut t [] [.pc, .fault]

/-- RET pops the newest entry into pc; on an empty stack it only emits the diagnostic and pc stays advanced (40_control_flow R102). -/
def Obligations.ReturnPopsOrLogs : Prop :=
  (∀ (s : State) (below : List Word) (a : Word), s.stack = below ++ [a] →
    ∃ t, exec .ret s = .next t ∧ t.pc = a ∧ t.stack = below ∧ s.unchangedBut t [] [.pc, .stack]) ∧
  (∀ s : State, s.stack = [] →
    ∃ t, exec .ret s = .next t ∧ t.events = s.events ++ [.emptyReturn (s.pc - 2)] ∧ s.unchangedBut t [] [.events])

/-- A call followed by its return, wherever the return stands and whatever the subroutine did but leave the stack as it found it, comes back
to the instruction after the call (40_control_flow R101, R102). -/
def Obligations.ReturnComesBackBehindTheCall : Prop :=
  ∀ (nnn : BitVec 12) (s t u : State), stackHasRoom s → exec (.call nnn) s = .next t → u.stack = t.stack →
    ∃ w, exec .ret u = .next w ∧ w.pc = s.pc ∧ w.stack = s.stack

/-- The offset jump adds `V0`, or `VX` with X the top nibble of nnn under Q_JUMP_VX, to the whole of nnn (40_control_flow R103). That the sum
is kept in full is decision D6 (log 12). -/
def Obligations.OffsetJumpAddsTheSelectedRegister : Prop :=
  ∀ (nnn : BitVec 12) (s : State),
    ∃ t, exec (.jpV0 nnn) s = .next t ∧
      (s.config.quirks.jumpVx = false → t.pc.toNat = nnn.toNat + (s.reg 0).toNat) ∧
      (s.config.quirks.jumpVx = true → ∀ x : RegIdx, x.val = nnn.toNat / 256 → t.pc.toNat = nnn.toNat + (s.reg x).toNat) ∧
      s.unchangedBut t [] [.pc]

/-! ### Skips -/

/-- The four skips advance pc by 2 more exactly when their condition holds, and change nothing else (41_skips R110 to R113). -/
def Obligations.SkipsAdvanceOnTheirCondition : Prop :=
  ∀ (x y : RegIdx) (nn : Byte) (s : State),
    (∃ t, exec (.seImm x nn) s = .next t ∧ t.pc = (if s.reg x = nn then s.pc + 2 else s.pc) ∧ s.unchangedBut t [] [.pc]) ∧
    (∃ t, exec (.sneImm x nn) s = .next t ∧ t.pc = (if s.reg x = nn then s.pc else s.pc + 2) ∧ s.unchangedBut t [] [.pc]) ∧
    (∃ t, exec (.seReg x y) s = .next t ∧ t.pc = (if s.reg x = s.reg y then s.pc + 2 else s.pc) ∧ s.unchangedBut t [] [.pc]) ∧
    (∃ t, exec (.sneReg x y) s = .next t ∧ t.pc = (if s.reg x = s.reg y then s.pc else s.pc + 2) ∧ s.unchangedBut t [] [.pc])

/-! ### Immediates and the index load -/

/-- LD Vx, nn loads, ADD Vx, nn adds modulo 256, and neither writes another register, VF included (42_immediate_index R120, R121). -/
def Obligations.ImmediateLoadAndAddWriteNoFlag : Prop :=
  ∀ (x : RegIdx) (nn : Byte) (s : State),
    (∃ t, exec (.ldImm x nn) s = .next t ∧ t.reg x = nn ∧ s.unchangedBut t [x] []) ∧
    (∃ t, exec (.addImm x nn) s = .next t ∧ (t.reg x).toNat = ((s.reg x).toNat + nn.toNat) % 256 ∧ s.unchangedBut t [x] [])

/-- LD I, nnn writes the 12-bit value into I and nothing else (42_immediate_index R122). -/
def Obligations.IndexLoadWritesI : Prop :=
  ∀ (nnn : BitVec 12) (s : State),
    ∃ t, exec (.ldI nnn) s = .next t ∧ t.i.toNat = nnn.toNat ∧ s.unchangedBut t [] [.i]

/-! ### Register-to-register operations -/

/-- LD, OR, AND and XOR write VX, bit by bit, and no other register, VF included (43_alu R130 to R133). -/
def Obligations.AssignAndLogicWriteNoFlag : Prop :=
  ∀ (x y : RegIdx) (s : State),
    (∃ t, exec (.ldReg x y) s = .next t ∧ t.reg x = s.reg y ∧ s.unchangedBut t [x] []) ∧
    (∃ t, exec (.orReg x y) s = .next t ∧
      (∀ k, (t.reg x).getLsbD k = ((s.reg x).getLsbD k || (s.reg y).getLsbD k)) ∧ s.unchangedBut t [x] []) ∧
    (∃ t, exec (.andReg x y) s = .next t ∧
      (∀ k, (t.reg x).getLsbD k = ((s.reg x).getLsbD k && (s.reg y).getLsbD k)) ∧ s.unchangedBut t [x] []) ∧
    (∃ t, exec (.xorReg x y) s = .next t ∧
      (∀ k, (t.reg x).getLsbD k = ((s.reg x).getLsbD k ^^ (s.reg y).getLsbD k)) ∧ s.unchangedBut t [x] [])

/-- ADD Vx, Vy: VF is 1 when the true sum exceeds 255, else 0, and VX is the sum modulo 256 (43_alu R134). With X = 15 the flag is what
stays: the spec's decision D7 (43_alu R139, log 12). -/
def Obligations.AddWritesTheSumThenTheCarry : Prop :=
  ∀ (x y : RegIdx) (s : State),
    ∃ t, exec (.addReg x y) s = .next t ∧
      t.reg vf = (if 255 < (s.reg x).toNat + (s.reg y).toNat then 1 else 0) ∧
      (x ≠ vf → (t.reg x).toNat = ((s.reg x).toNat + (s.reg y).toNat) % 256) ∧
      s.unchangedBut t [x, vf] []

/-- SUB and SUBN: VF is 1 when the minuend is at least the subtrahend, else 0, and VX is the difference modulo 256 (43_alu R135, R137).
With X = 15 the flag is what stays: the spec's decision D7 (43_alu R139, log 12). -/
def Obligations.SubtractionsWriteTheDifferenceThenNoBorrow : Prop :=
  ∀ (x y : RegIdx) (s : State),
    (∃ t, exec (.subReg x y) s = .next t ∧
      t.reg vf = (if (s.reg y).toNat ≤ (s.reg x).toNat then 1 else 0) ∧
      (x ≠ vf → (t.reg x).toNat = (256 + (s.reg x).toNat - (s.reg y).toNat) % 256) ∧
      s.unchangedBut t [x, vf] []) ∧
    (∃ t, exec (.subnReg x y) s = .next t ∧
      t.reg vf = (if (s.reg x).toNat ≤ (s.reg y).toNat then 1 else 0) ∧
      (x ≠ vf → (t.reg x).toNat = (256 + (s.reg y).toNat - (s.reg x).toNat) % 256) ∧
      s.unchangedBut t [x, vf] [])

/-- SHR and SHL move the source by one bit, fill with 0, and write the bit moved out to VF; the source is VY under Q_SHIFT_VY and VX
otherwise (43_alu R136, R138). The zero fill is decision D24, the flag staying with X = 15 decision D7 (43_alu R139, log 12). -/
def Obligations.ShiftsMoveOneBitThenWriteTheBitOut : Prop :=
  ∀ (x y : RegIdx) (s : State) (v : Byte), v = (if s.config.quirks.shiftVy = true then s.reg y else s.reg x) →
    (∃ t, exec (.shrReg x y) s = .next t ∧ (t.reg vf).toNat = v.toNat % 2 ∧
      (x ≠ vf → (t.reg x).toNat = v.toNat / 2) ∧ s.unchangedBut t [x, vf] []) ∧
    (∃ t, exec (.shlReg x y) s = .next t ∧ (t.reg vf).toNat = v.toNat / 128 ∧
      (x ≠ vf → (t.reg x).toNat = v.toNat * 2 % 256) ∧ s.unchangedBut t [x, vf] [])

/-- The flag of both subtractions is the carry out of `minuend + not(subtrahend) + 1` (43_alu R129). With X = 15 too the flag is what stays:
43_alu R139, the spec's decision D7 (log 12). -/
def Obligations.NoBorrowIsTheCarryOfTheComplementSum : Prop :=
  ∀ (x y : RegIdx) (s : State),
    (∃ t, exec (.subReg x y) s = .next t ∧ (t.reg vf).toNat = ((s.reg x).toNat + (~~~(s.reg y)).toNat + 1) / 256) ∧
    (∃ t, exec (.subnReg x y) s = .next t ∧ (t.reg vf).toNat = ((s.reg y).toNat + (~~~(s.reg x)).toNat + 1) / 256)

/-! ### Display -/

/-- CLS sets every cell false, raises the dirty flag and changes nothing else (44_display R140). -/
def Obligations.ClearScreenClearsEveryCell : Prop :=
  ∀ s : State, ∃ t, exec .cls s = .next t ∧ t.disp.shaped s.config.width s.config.height ∧
    (∀ r c, t.disp.pixel r c = false) ∧ t.dirty = true ∧ s.unchangedBut t [] [.disp, .dirty]

/-- DRW flips exactly the cells of the display under a set bit of the sprite, clipped at the right and bottom edge; VF ends 1 exactly when
such a cell was set before; I, memory and every other register stay; the dirty flag is raised (44_display R141). Bit 7 leftmost is decision
D8, the check of all `n` bytes decision D9 (log 16); that X = 15 or Y = 15 takes the coordinate from VF before VF is reset is decision D7
(log 12). -/
def Obligations.DrawXorsTheSpriteInsideTheClip : Prop :=
  ∀ (x y : RegIdx) (n : BitVec 4) (s : State), s.disp.shaped s.config.width s.config.height →
    (n = 0 ∨ s.i.toNat + n.toNat ≤ memSize) →
    ∃ t, exec (.drw x y n) s = .next t ∧ t.disp.shaped s.config.width s.config.height ∧
      (∀ r c, onDisplay s r c → (t.disp.pixel r c = true ↔ ¬(s.disp.pixel r c = true ↔ spriteCovers s x y n r c))) ∧
      ((∃ r c, onDisplay s r c ∧ spriteCovers s x y n r c ∧ s.disp.pixel r c = true) → t.reg vf = 1) ∧
      ((¬∃ r c, onDisplay s r c ∧ spriteCovers s x y n r c ∧ s.disp.pixel r c = true) → t.reg vf = 0) ∧
      t.dirty = true ∧ s.unchangedBut t [vf] [.disp, .dirty]

/-- Drawing the same sprite twice at the same place restores the display; the second draw reports a collision exactly when the sprite has a
set bit over a cell that was clear before the first (44_display R141, 95_test_vectors S2, conflict C9). The place is the same when VX and
VY still hold what they held, which only a coordinate in VF can break. -/
def Obligations.DrawingTwiceRestoresTheDisplay : Prop :=
  ∀ (x y : RegIdx) (n : BitVec 4) (s t : State), s.disp.shaped s.config.width s.config.height →
    (n = 0 ∨ s.i.toNat + n.toNat ≤ memSize) → exec (.drw x y n) s = .next t →
    t.reg x = s.reg x → t.reg y = s.reg y →
    ∃ u, exec (.drw x y n) t = .next u ∧ u.disp = s.disp ∧
      (u.reg vf = 1 ↔ ∃ r c, onDisplay s r c ∧ spriteCovers s x y n r c ∧ s.disp.pixel r c = false)

/-! ### Memory through the index register -/

/-- DRW, LD B, LD [I] and LD Vx,[I] whose range at I passes 4095 latch MEM_RANGE with `max(I, 4096)`, put pc back to pc0 and perform none
of their writes (20_memory R51, 60_exceptions R183). The fault is the spec's own (decisions D5, D9; log 5). -/
def Obligations.MemoryAccessBeyond4095Faults : Prop :=
  ∀ (i : Instr) (s : State), accessLength i ≠ 0 → memSize < s.i.toNat + accessLength i →
    ∃ t, exec i s = .next t ∧ t.fault = some (.memRange (s.pc - 2) (max s.i.toNat memSize)) ∧ t.pc = s.pc - 2 ∧
      s.unchangedBut t [] [.pc, .fault]

/-- LD [I], Vx inside memory stores V0 to VX at I, I+1, ...; every other byte and every register stay; I grows by X + 1 under Q_MEM_INCR_I
and stays otherwise (45_memory_index R150). Outside memory it faults: MemoryAccessBeyond4095Faults. -/
def Obligations.RegisterDumpStoresV0ToVX : Prop :=
  ∀ (x : RegIdx) (s : State), s.mem.wf → s.i.toNat + (x.val + 1) ≤ memSize →
    ∃ t, exec (.ldMemVx x) s = .next t ∧
      (∀ k : RegIdx, k ≤ x → t.mem.read (s.i.toNat + k.val) = s.reg k) ∧
      (∀ a, ¬(s.i.toNat ≤ a ∧ a < s.i.toNat + (x.val + 1)) → t.mem.read a = s.mem.read a) ∧
      t.i.toNat = s.i.toNat + (if s.config.quirks.memIncrI = true then x.val + 1 else 0) ∧ t.mem.wf ∧
      s.unchangedBut t [] [.mem, .i]

/-- LD Vx, [I] inside memory loads V0 to VX from I, I+1, ...; every other register and all of memory stay; I grows by X + 1 under
Q_MEM_INCR_I and stays otherwise (45_memory_index R151). Outside memory it faults: MemoryAccessBeyond4095Faults. -/
def Obligations.RegisterLoadReadsV0ToVX : Prop :=
  ∀ (x : RegIdx) (s : State), s.i.toNat + (x.val + 1) ≤ memSize →
    ∃ t, exec (.ldVxMem x) s = .next t ∧
      (∀ k : RegIdx, k ≤ x → t.reg k = s.mem.read (s.i.toNat + k.val)) ∧
      (∀ k : RegIdx, x < k → t.reg k = s.reg k) ∧
      t.i.toNat = s.i.toNat + (if s.config.quirks.memIncrI = true then x.val + 1 else 0) ∧
      s.unchangedBut t (regsWritten (.ldVxMem x)) [.i]

/-- A register dump followed by a register load through the same memory region round-trips V0 to VX, whatever the registers held in
between and with either setting of Q_MEM_INCR_I (45_memory_index R151). -/
def Obligations.DumpThenLoadRoundTrips : Prop :=
  ∀ (x : RegIdx) (s t u : State), s.mem.wf → s.i.toNat + (x.val + 1) ≤ memSize → exec (.ldMemVx x) s = .next t →
    u.mem = t.mem → u.i = s.i →
    ∃ w, exec (.ldVxMem x) u = .next w ∧ ∀ k : RegIdx, k ≤ x → w.reg k = s.reg k

/-- ADD I, Vx adds modulo 65536; under Q_IADD_VF it also sets VF to 1 always, otherwise VF stays (45_memory_index R152, conflict C8). That
VX is read before VF is set is decision D7 (log 12). -/
def Obligations.IndexAddWrapsAt16Bits : Prop :=
  ∀ (x : RegIdx) (s : State),
    ∃ t, exec (.addIVx x) s = .next t ∧ t.i.toNat = (s.i.toNat + (s.reg x).toNat) % 65536 ∧
      t.reg vf = (if s.config.quirks.iaddVf = true then 1 else s.reg vf) ∧ s.unchangedBut t [vf] [.i]

/-- LD B, Vx inside memory stores the hundreds, tens and units of VX at I, I+1, I+2, as digits that make VX; every other byte and every
register stay (45_memory_index R153). Outside memory it faults: MemoryAccessBeyond4095Faults. -/
def Obligations.BcdStoresTheDecimalDigits : Prop :=
  ∀ (x : RegIdx) (s : State), s.mem.wf → s.i.toNat + 3 ≤ memSize →
    ∃ t, exec (.ldBVx x) s = .next t ∧
      100 * (t.mem.read s.i.toNat).toNat + 10 * (t.mem.read (s.i.toNat + 1)).toNat + (t.mem.read (s.i.toNat + 2)).toNat
        = (s.reg x).toNat ∧
      (t.mem.read s.i.toNat).toNat ≤ 2 ∧ (t.mem.read (s.i.toNat + 1)).toNat ≤ 9 ∧ (t.mem.read (s.i.toNat + 2)).toNat ≤ 9 ∧
      (∀ a, ¬(s.i.toNat ≤ a ∧ a < s.i.toNat + 3) → t.mem.read a = s.mem.read a) ∧ t.mem.wf ∧
      s.unchangedBut t [] [.mem]

/-- A store of LD [I], Vx or LD B, Vx is seen by the very next fetch, byte by byte: wherever pc stands, the two bytes the next CYCLE decodes
are each the stored byte where it lies inside the stored range and the old byte where it does not (20_memory R60, 95_test_vectors MI19). -/
def Obligations.StoredBytesAreFetchedNext : Prop :=
  ∀ (i : Instr) (s t : State), storeLength i ≠ 0 → s.mem.wf → s.i.toNat + storeLength i ≤ memSize → exec i s = .next t →
    t.fetchBytes = [byteAfterStore i s s.pc.toNat, byteAfterStore i s (s.pc.toNat + 1)] ∧
    t.fetchWord = wordOfBytes (byteAfterStore i s s.pc.toNat) (byteAfterStore i s (s.pc.toNat + 1))

/-! ### Keys and timers -/

/-- LD Vx, K with a reported key stores its number and goes on; with none it puts pc back to pc0 and changes nothing else
(46_keys_timers R160). That the number 0 to 15 of the key is what it stores is decision D18 (log 15, DEDUCED). -/
def Obligations.KeyWaitStoresTheKeyOrRewinds : Prop :=
  (∀ (x : RegIdx) (s : State) (k : Key), s.input.key = some k →
    ∃ t, exec (.ldVxK x) s = .next t ∧ (t.reg x).toNat = k.val ∧ s.unchangedBut t [x] []) ∧
  (∀ (x : RegIdx) (s : State), s.input.key = none →
    ∃ t, exec (.ldVxK x) s = .next t ∧ t.pc = s.pc - 2 ∧ s.unchangedBut t [] [.pc])

/-- A CYCLE that meets LD Vx, K with no key reported leaves every piece of the core's state as it was (46_keys_timers R160). -/
def Obligations.KeyWaitCycleChangesNothing : Prop :=
  ∀ (x : RegIdx) (s : State) (input : CycleInput),
    runsNext s (.ldVxK x) → s.nextOp = .cycle input → input.key = none →
    ∃ t, step s = .next t ∧ opTaken s t ∧ s.unchangedBut t [] [.host, .input, .freeCount]

/-- SKP skips exactly when a key is reported whose number is all of VX, SKNP exactly when not: for every state and every answer exactly one
of the two skips (46_keys_timers R161, R162). The comparison on all 8 bits is decision D14 (log 15). -/
def Obligations.KeySkipsAreComplements : Prop :=
  ∀ (x : RegIdx) (s : State),
    ∃ t u, exec (.skp x) s = .next t ∧ exec (.sknp x) s = .next u ∧
      ((∃ k : Key, s.input.key = some k ∧ k.val = (s.reg x).toNat) → t.pc = s.pc + 2 ∧ u.pc = s.pc) ∧
      ((¬∃ k : Key, s.input.key = some k ∧ k.val = (s.reg x).toNat) → t.pc = s.pc ∧ u.pc = s.pc + 2) ∧
      s.unchangedBut t [] [.pc] ∧ s.unchangedBut u [] [.pc]

/-- The timer transfers: LD Vx, DT reads DT; LD DT, Vx and LD ST, Vx write a timer, with no event (46_keys_timers R163 to R165). That LD ST,
Vx emits no event is decision D16 (log 19, DEDUCED; conflicts C3, C4). -/
def Obligations.TimerTransfersCopyAByte : Prop :=
  ∀ (x : RegIdx) (s : State),
    (∃ t, exec (.ldVxDt x) s = .next t ∧ t.reg x = s.dt ∧ s.unchangedBut t [x] []) ∧
    (∃ t, exec (.ldDtVx x) s = .next t ∧ t.dt = s.reg x ∧ s.unchangedBut t [] [.dt]) ∧
    (∃ t, exec (.ldStVx x) s = .next t ∧ t.st = s.reg x ∧ s.unchangedBut t [] [.st])

/-! ### RND, LD F, SYS -/

/-- RND writes the drawn byte under the mask, so no bit outside nn is ever set, whatever the draw (47_rnd_font_sys R170; the draw as an input
is decision D12, log 3). -/
def Obligations.RandomByteStaysUnderTheMask : Prop :=
  ∀ (x : RegIdx) (nn : Byte) (s : State),
    ∃ t, exec (.rnd x nn) s = .next t ∧ (∀ k, (t.reg x).getLsbD k = (s.input.draw.getLsbD k && nn.getLsbD k)) ∧
      s.unchangedBut t [x] []

/-- LD F points I at the glyph of the low nibble of VX (47_rnd_font_sys R171; the low nibble for VX above 15 is decision D13, log 15). -/
def Obligations.FontPointerSelectsTheGlyph : Prop :=
  ∀ (x : RegIdx) (s : State), s.config.legal →
    ∃ t, exec (.ldFVx x) s = .next t ∧ t.i.toNat = s.config.fontBase + 5 * ((s.reg x).toNat % 16) ∧ s.unchangedBut t [] [.i]

/-- SYS executes as an unknown word: the diagnostic with the whole word and pc0, and nothing else (47_rnd_font_sys R172, decision D11;
log 14). -/
def Obligations.SysIsLoggedAndIgnored : Prop :=
  ∀ (nnn : BitVec 12) (s : State),
    ∃ t, exec (.sys nnn) s = .next t ∧ t.events = s.events ++ [.unknownOpcode (nnn.setWidth 16) (s.pc - 2)] ∧
      s.unchangedBut t [] [.events]
end

