-- ==== Sys2Proof/Laws/State.lean ====
section
/-! SUPPORT. One lemma per field per update of State: what each named update leaves in each field, true by rfl. -/

namespace Sys2Proof.Machine

variable (s : State)

/-! ### setReg -/

theorem State.setReg_v (r : RegIdx) (b : Byte) : (s.setReg r b).v = s.v.set r.val b r.isLt := rfl
@[simp] theorem State.setReg_pc (r : RegIdx) (b : Byte) : (s.setReg r b).pc = s.pc := rfl
@[simp] theorem State.setReg_i (r : RegIdx) (b : Byte) : (s.setReg r b).i = s.i := rfl
@[simp] theorem State.setReg_stack (r : RegIdx) (b : Byte) : (s.setReg r b).stack = s.stack := rfl
@[simp] theorem State.setReg_dt (r : RegIdx) (b : Byte) : (s.setReg r b).dt = s.dt := rfl
@[simp] theorem State.setReg_st (r : RegIdx) (b : Byte) : (s.setReg r b).st = s.st := rfl
@[simp] theorem State.setReg_mem (r : RegIdx) (b : Byte) : (s.setReg r b).mem = s.mem := rfl
@[simp] theorem State.setReg_disp (r : RegIdx) (b : Byte) : (s.setReg r b).disp = s.disp := rfl
@[simp] theorem State.setReg_dirty (r : RegIdx) (b : Byte) : (s.setReg r b).dirty = s.dirty := rfl
@[simp] theorem State.setReg_config (r : RegIdx) (b : Byte) : (s.setReg r b).config = s.config := rfl
@[simp] theorem State.setReg_fault (r : RegIdx) (b : Byte) : (s.setReg r b).fault = s.fault := rfl
@[simp] theorem State.setReg_input (r : RegIdx) (b : Byte) : (s.setReg r b).input = s.input := rfl
@[simp] theorem State.setReg_host (r : RegIdx) (b : Byte) : (s.setReg r b).host = s.host := rfl
@[simp] theorem State.setReg_events (r : RegIdx) (b : Byte) : (s.setReg r b).events = s.events := rfl
@[simp] theorem State.setReg_freeCount (r : RegIdx) (b : Byte) : (s.setReg r b).freeCount = s.freeCount := rfl

/-! ### setFlag -/

theorem State.setFlag_v (b : Bool) : (s.setFlag b).v = s.v.set 15 (flagByte b) := rfl
@[simp] theorem State.setFlag_pc (b : Bool) : (s.setFlag b).pc = s.pc := rfl
@[simp] theorem State.setFlag_i (b : Bool) : (s.setFlag b).i = s.i := rfl
@[simp] theorem State.setFlag_stack (b : Bool) : (s.setFlag b).stack = s.stack := rfl
@[simp] theorem State.setFlag_dt (b : Bool) : (s.setFlag b).dt = s.dt := rfl
@[simp] theorem State.setFlag_st (b : Bool) : (s.setFlag b).st = s.st := rfl
@[simp] theorem State.setFlag_mem (b : Bool) : (s.setFlag b).mem = s.mem := rfl
@[simp] theorem State.setFlag_disp (b : Bool) : (s.setFlag b).disp = s.disp := rfl
@[simp] theorem State.setFlag_dirty (b : Bool) : (s.setFlag b).dirty = s.dirty := rfl
@[simp] theorem State.setFlag_config (b : Bool) : (s.setFlag b).config = s.config := rfl
@[simp] theorem State.setFlag_fault (b : Bool) : (s.setFlag b).fault = s.fault := rfl
@[simp] theorem State.setFlag_input (b : Bool) : (s.setFlag b).input = s.input := rfl
@[simp] theorem State.setFlag_host (b : Bool) : (s.setFlag b).host = s.host := rfl
@[simp] theorem State.setFlag_events (b : Bool) : (s.setFlag b).events = s.events := rfl
@[simp] theorem State.setFlag_freeCount (b : Bool) : (s.setFlag b).freeCount = s.freeCount := rfl

/-! ### setPc -/

@[simp] theorem State.setPc_v (a : Word) : (s.setPc a).v = s.v := rfl
@[simp] theorem State.setPc_pc (a : Word) : (s.setPc a).pc = a := rfl
@[simp] theorem State.setPc_i (a : Word) : (s.setPc a).i = s.i := rfl
@[simp] theorem State.setPc_stack (a : Word) : (s.setPc a).stack = s.stack := rfl
@[simp] theorem State.setPc_dt (a : Word) : (s.setPc a).dt = s.dt := rfl
@[simp] theorem State.setPc_st (a : Word) : (s.setPc a).st = s.st := rfl
@[simp] theorem State.setPc_mem (a : Word) : (s.setPc a).mem = s.mem := rfl
@[simp] theorem State.setPc_disp (a : Word) : (s.setPc a).disp = s.disp := rfl
@[simp] theorem State.setPc_dirty (a : Word) : (s.setPc a).dirty = s.dirty := rfl
@[simp] theorem State.setPc_config (a : Word) : (s.setPc a).config = s.config := rfl
@[simp] theorem State.setPc_fault (a : Word) : (s.setPc a).fault = s.fault := rfl
@[simp] theorem State.setPc_input (a : Word) : (s.setPc a).input = s.input := rfl
@[simp] theorem State.setPc_host (a : Word) : (s.setPc a).host = s.host := rfl
@[simp] theorem State.setPc_events (a : Word) : (s.setPc a).events = s.events := rfl
@[simp] theorem State.setPc_freeCount (a : Word) : (s.setPc a).freeCount = s.freeCount := rfl
@[simp] theorem State.setPc_reg (a : Word) (q : RegIdx) : (s.setPc a).reg q = s.reg q := rfl

/-! ### setI -/

@[simp] theorem State.setI_v (a : Word) : (s.setI a).v = s.v := rfl
@[simp] theorem State.setI_pc (a : Word) : (s.setI a).pc = s.pc := rfl
@[simp] theorem State.setI_i (a : Word) : (s.setI a).i = a := rfl
@[simp] theorem State.setI_stack (a : Word) : (s.setI a).stack = s.stack := rfl
@[simp] theorem State.setI_dt (a : Word) : (s.setI a).dt = s.dt := rfl
@[simp] theorem State.setI_st (a : Word) : (s.setI a).st = s.st := rfl
@[simp] theorem State.setI_mem (a : Word) : (s.setI a).mem = s.mem := rfl
@[simp] theorem State.setI_disp (a : Word) : (s.setI a).disp = s.disp := rfl
@[simp] theorem State.setI_dirty (a : Word) : (s.setI a).dirty = s.dirty := rfl
@[simp] theorem State.setI_config (a : Word) : (s.setI a).config = s.config := rfl
@[simp] theorem State.setI_fault (a : Word) : (s.setI a).fault = s.fault := rfl
@[simp] theorem State.setI_input (a : Word) : (s.setI a).input = s.input := rfl
@[simp] theorem State.setI_host (a : Word) : (s.setI a).host = s.host := rfl
@[simp] theorem State.setI_events (a : Word) : (s.setI a).events = s.events := rfl
@[simp] theorem State.setI_freeCount (a : Word) : (s.setI a).freeCount = s.freeCount := rfl
@[simp] theorem State.setI_reg (a : Word) (q : RegIdx) : (s.setI a).reg q = s.reg q := rfl

/-! ### setDt -/

@[simp] theorem State.setDt_v (b : Byte) : (s.setDt b).v = s.v := rfl
@[simp] theorem State.setDt_pc (b : Byte) : (s.setDt b).pc = s.pc := rfl
@[simp] theorem State.setDt_i (b : Byte) : (s.setDt b).i = s.i := rfl
@[simp] theorem State.setDt_stack (b : Byte) : (s.setDt b).stack = s.stack := rfl
@[simp] theorem State.setDt_dt (b : Byte) : (s.setDt b).dt = b := rfl
@[simp] theorem State.setDt_st (b : Byte) : (s.setDt b).st = s.st := rfl
@[simp] theorem State.setDt_mem (b : Byte) : (s.setDt b).mem = s.mem := rfl
@[simp] theorem State.setDt_disp (b : Byte) : (s.setDt b).disp = s.disp := rfl
@[simp] theorem State.setDt_dirty (b : Byte) : (s.setDt b).dirty = s.dirty := rfl
@[simp] theorem State.setDt_config (b : Byte) : (s.setDt b).config = s.config := rfl
@[simp] theorem State.setDt_fault (b : Byte) : (s.setDt b).fault = s.fault := rfl
@[simp] theorem State.setDt_input (b : Byte) : (s.setDt b).input = s.input := rfl
@[simp] theorem State.setDt_host (b : Byte) : (s.setDt b).host = s.host := rfl
@[simp] theorem State.setDt_events (b : Byte) : (s.setDt b).events = s.events := rfl
@[simp] theorem State.setDt_freeCount (b : Byte) : (s.setDt b).freeCount = s.freeCount := rfl
@[simp] theorem State.setDt_reg (b : Byte) (q : RegIdx) : (s.setDt b).reg q = s.reg q := rfl

/-! ### setSt -/

@[simp] theorem State.setSt_v (b : Byte) : (s.setSt b).v = s.v := rfl
@[simp] theorem State.setSt_pc (b : Byte) : (s.setSt b).pc = s.pc := rfl
@[simp] theorem State.setSt_i (b : Byte) : (s.setSt b).i = s.i := rfl
@[simp] theorem State.setSt_stack (b : Byte) : (s.setSt b).stack = s.stack := rfl
@[simp] theorem State.setSt_dt (b : Byte) : (s.setSt b).dt = s.dt := rfl
@[simp] theorem State.setSt_st (b : Byte) : (s.setSt b).st = b := rfl
@[simp] theorem State.setSt_mem (b : Byte) : (s.setSt b).mem = s.mem := rfl
@[simp] theorem State.setSt_disp (b : Byte) : (s.setSt b).disp = s.disp := rfl
@[simp] theorem State.setSt_dirty (b : Byte) : (s.setSt b).dirty = s.dirty := rfl
@[simp] theorem State.setSt_config (b : Byte) : (s.setSt b).config = s.config := rfl
@[simp] theorem State.setSt_fault (b : Byte) : (s.setSt b).fault = s.fault := rfl
@[simp] theorem State.setSt_input (b : Byte) : (s.setSt b).input = s.input := rfl
@[simp] theorem State.setSt_host (b : Byte) : (s.setSt b).host = s.host := rfl
@[simp] theorem State.setSt_events (b : Byte) : (s.setSt b).events = s.events := rfl
@[simp] theorem State.setSt_freeCount (b : Byte) : (s.setSt b).freeCount = s.freeCount := rfl
@[simp] theorem State.setSt_reg (b : Byte) (q : RegIdx) : (s.setSt b).reg q = s.reg q := rfl

/-! ### emit -/

@[simp] theorem State.emit_v (e : Event) : (s.emit e).v = s.v := rfl
@[simp] theorem State.emit_pc (e : Event) : (s.emit e).pc = s.pc := rfl
@[simp] theorem State.emit_i (e : Event) : (s.emit e).i = s.i := rfl
@[simp] theorem State.emit_stack (e : Event) : (s.emit e).stack = s.stack := rfl
@[simp] theorem State.emit_dt (e : Event) : (s.emit e).dt = s.dt := rfl
@[simp] theorem State.emit_st (e : Event) : (s.emit e).st = s.st := rfl
@[simp] theorem State.emit_mem (e : Event) : (s.emit e).mem = s.mem := rfl
@[simp] theorem State.emit_disp (e : Event) : (s.emit e).disp = s.disp := rfl
@[simp] theorem State.emit_dirty (e : Event) : (s.emit e).dirty = s.dirty := rfl
@[simp] theorem State.emit_config (e : Event) : (s.emit e).config = s.config := rfl
@[simp] theorem State.emit_fault (e : Event) : (s.emit e).fault = s.fault := rfl
@[simp] theorem State.emit_input (e : Event) : (s.emit e).input = s.input := rfl
@[simp] theorem State.emit_host (e : Event) : (s.emit e).host = s.host := rfl
@[simp] theorem State.emit_events (e : Event) : (s.emit e).events = s.events ++ [e] := rfl
@[simp] theorem State.emit_freeCount (e : Event) : (s.emit e).freeCount = s.freeCount := rfl
@[simp] theorem State.emit_reg (e : Event) (q : RegIdx) : (s.emit e).reg q = s.reg q := rfl

/-! ### push -/

@[simp] theorem State.push_v (a : Word) : (s.push a).v = s.v := rfl
@[simp] theorem State.push_pc (a : Word) : (s.push a).pc = s.pc := rfl
@[simp] theorem State.push_i (a : Word) : (s.push a).i = s.i := rfl
@[simp] theorem State.push_stack (a : Word) : (s.push a).stack = s.stack ++ [a] := rfl
@[simp] theorem State.push_dt (a : Word) : (s.push a).dt = s.dt := rfl
@[simp] theorem State.push_st (a : Word) : (s.push a).st = s.st := rfl
@[simp] theorem State.push_mem (a : Word) : (s.push a).mem = s.mem := rfl
@[simp] theorem State.push_disp (a : Word) : (s.push a).disp = s.disp := rfl
@[simp] theorem State.push_dirty (a : Word) : (s.push a).dirty = s.dirty := rfl
@[simp] theorem State.push_config (a : Word) : (s.push a).config = s.config := rfl
@[simp] theorem State.push_fault (a : Word) : (s.push a).fault = s.fault := rfl
@[simp] theorem State.push_input (a : Word) : (s.push a).input = s.input := rfl
@[simp] theorem State.push_host (a : Word) : (s.push a).host = s.host := rfl
@[simp] theorem State.push_events (a : Word) : (s.push a).events = s.events := rfl
@[simp] theorem State.push_freeCount (a : Word) : (s.push a).freeCount = s.freeCount := rfl
@[simp] theorem State.push_reg (a : Word) (q : RegIdx) : (s.push a).reg q = s.reg q := rfl

/-! ### dropTop -/

@[simp] theorem State.dropTop_v : (s.dropTop).v = s.v := rfl
@[simp] theorem State.dropTop_pc : (s.dropTop).pc = s.pc := rfl
@[simp] theorem State.dropTop_i : (s.dropTop).i = s.i := rfl
@[simp] theorem State.dropTop_stack : (s.dropTop).stack = s.stack.dropLast := rfl
@[simp] theorem State.dropTop_dt : (s.dropTop).dt = s.dt := rfl
@[simp] theorem State.dropTop_st : (s.dropTop).st = s.st := rfl
@[simp] theorem State.dropTop_mem : (s.dropTop).mem = s.mem := rfl
@[simp] theorem State.dropTop_disp : (s.dropTop).disp = s.disp := rfl
@[simp] theorem State.dropTop_dirty : (s.dropTop).dirty = s.dirty := rfl
@[simp] theorem State.dropTop_config : (s.dropTop).config = s.config := rfl
@[simp] theorem State.dropTop_fault : (s.dropTop).fault = s.fault := rfl
@[simp] theorem State.dropTop_input : (s.dropTop).input = s.input := rfl
@[simp] theorem State.dropTop_host : (s.dropTop).host = s.host := rfl
@[simp] theorem State.dropTop_events : (s.dropTop).events = s.events := rfl
@[simp] theorem State.dropTop_freeCount : (s.dropTop).freeCount = s.freeCount := rfl
@[simp] theorem State.dropTop_reg (q : RegIdx) : (s.dropTop).reg q = s.reg q := rfl

/-! ### raise -/

@[simp] theorem State.raise_v (f : LatchedFault) : (s.raise f).v = s.v := rfl
@[simp] theorem State.raise_pc (f : LatchedFault) : (s.raise f).pc = f.pc0 := rfl
@[simp] theorem State.raise_i (f : LatchedFault) : (s.raise f).i = s.i := rfl
@[simp] theorem State.raise_stack (f : LatchedFault) : (s.raise f).stack = s.stack := rfl
@[simp] theorem State.raise_dt (f : LatchedFault) : (s.raise f).dt = s.dt := rfl
@[simp] theorem State.raise_st (f : LatchedFault) : (s.raise f).st = s.st := rfl
@[simp] theorem State.raise_mem (f : LatchedFault) : (s.raise f).mem = s.mem := rfl
@[simp] theorem State.raise_disp (f : LatchedFault) : (s.raise f).disp = s.disp := rfl
@[simp] theorem State.raise_dirty (f : LatchedFault) : (s.raise f).dirty = s.dirty := rfl
@[simp] theorem State.raise_config (f : LatchedFault) : (s.raise f).config = s.config := rfl
@[simp] theorem State.raise_fault (f : LatchedFault) : (s.raise f).fault = some f := rfl
@[simp] theorem State.raise_input (f : LatchedFault) : (s.raise f).input = s.input := rfl
@[simp] theorem State.raise_host (f : LatchedFault) : (s.raise f).host = s.host := rfl
@[simp] theorem State.raise_events (f : LatchedFault) : (s.raise f).events = s.events := rfl
@[simp] theorem State.raise_freeCount (f : LatchedFault) : (s.raise f).freeCount = s.freeCount := rfl
@[simp] theorem State.raise_reg (f : LatchedFault) (q : RegIdx) : (s.raise f).reg q = s.reg q := rfl

/-! ### storeAtI -/

@[simp] theorem State.storeAtI_v (bs : List Byte) : (s.storeAtI bs).v = s.v := rfl
@[simp] theorem State.storeAtI_pc (bs : List Byte) : (s.storeAtI bs).pc = s.pc := rfl
@[simp] theorem State.storeAtI_i (bs : List Byte) : (s.storeAtI bs).i = s.i := rfl
@[simp] theorem State.storeAtI_stack (bs : List Byte) : (s.storeAtI bs).stack = s.stack := rfl
@[simp] theorem State.storeAtI_dt (bs : List Byte) : (s.storeAtI bs).dt = s.dt := rfl
@[simp] theorem State.storeAtI_st (bs : List Byte) : (s.storeAtI bs).st = s.st := rfl
@[simp] theorem State.storeAtI_mem (bs : List Byte) : (s.storeAtI bs).mem = s.mem.writeBytes s.i.toNat bs := rfl
@[simp] theorem State.storeAtI_disp (bs : List Byte) : (s.storeAtI bs).disp = s.disp := rfl
@[simp] theorem State.storeAtI_dirty (bs : List Byte) : (s.storeAtI bs).dirty = s.dirty := rfl
@[simp] theorem State.storeAtI_config (bs : List Byte) : (s.storeAtI bs).config = s.config := rfl
@[simp] theorem State.storeAtI_fault (bs : List Byte) : (s.storeAtI bs).fault = s.fault := rfl
@[simp] theorem State.storeAtI_input (bs : List Byte) : (s.storeAtI bs).input = s.input := rfl
@[simp] theorem State.storeAtI_host (bs : List Byte) : (s.storeAtI bs).host = s.host := rfl
@[simp] theorem State.storeAtI_events (bs : List Byte) : (s.storeAtI bs).events = s.events := rfl
@[simp] theorem State.storeAtI_freeCount (bs : List Byte) : (s.storeAtI bs).freeCount = s.freeCount := rfl
@[simp] theorem State.storeAtI_reg (bs : List Byte) (q : RegIdx) : (s.storeAtI bs).reg q = s.reg q := rfl

/-! ### setDisp -/

@[simp] theorem State.setDisp_v (g : Grid) : (s.setDisp g).v = s.v := rfl
@[simp] theorem State.setDisp_pc (g : Grid) : (s.setDisp g).pc = s.pc := rfl
@[simp] theorem State.setDisp_i (g : Grid) : (s.setDisp g).i = s.i := rfl
@[simp] theorem State.setDisp_stack (g : Grid) : (s.setDisp g).stack = s.stack := rfl
@[simp] theorem State.setDisp_dt (g : Grid) : (s.setDisp g).dt = s.dt := rfl
@[simp] theorem State.setDisp_st (g : Grid) : (s.setDisp g).st = s.st := rfl
@[simp] theorem State.setDisp_mem (g : Grid) : (s.setDisp g).mem = s.mem := rfl
@[simp] theorem State.setDisp_disp (g : Grid) : (s.setDisp g).disp = g := rfl
@[simp] theorem State.setDisp_dirty (g : Grid) : (s.setDisp g).dirty = true := rfl
@[simp] theorem State.setDisp_config (g : Grid) : (s.setDisp g).config = s.config := rfl
@[simp] theorem State.setDisp_fault (g : Grid) : (s.setDisp g).fault = s.fault := rfl
@[simp] theorem State.setDisp_input (g : Grid) : (s.setDisp g).input = s.input := rfl
@[simp] theorem State.setDisp_host (g : Grid) : (s.setDisp g).host = s.host := rfl
@[simp] theorem State.setDisp_events (g : Grid) : (s.setDisp g).events = s.events := rfl
@[simp] theorem State.setDisp_freeCount (g : Grid) : (s.setDisp g).freeCount = s.freeCount := rfl
@[simp] theorem State.setDisp_reg (g : Grid) (q : RegIdx) : (s.setDisp g).reg q = s.reg q := rfl

/-! ### takeOp -/

@[simp] theorem State.takeOp_v : s.takeOp.v = s.v := rfl
@[simp] theorem State.takeOp_pc : s.takeOp.pc = s.pc := rfl
@[simp] theorem State.takeOp_i : s.takeOp.i = s.i := rfl
@[simp] theorem State.takeOp_stack : s.takeOp.stack = s.stack := rfl
@[simp] theorem State.takeOp_dt : s.takeOp.dt = s.dt := rfl
@[simp] theorem State.takeOp_st : s.takeOp.st = s.st := rfl
@[simp] theorem State.takeOp_mem : s.takeOp.mem = s.mem := rfl
@[simp] theorem State.takeOp_disp : s.takeOp.disp = s.disp := rfl
@[simp] theorem State.takeOp_dirty : s.takeOp.dirty = s.dirty := rfl
@[simp] theorem State.takeOp_config : s.takeOp.config = s.config := rfl
@[simp] theorem State.takeOp_fault : s.takeOp.fault = s.fault := rfl
@[simp] theorem State.takeOp_input : s.takeOp.input = s.input := rfl
@[simp] theorem State.takeOp_events : s.takeOp.events = s.events := rfl
@[simp] theorem State.takeOp_host : s.takeOp.host = s.host.tail := rfl
@[simp] theorem State.takeOp_freeCount : s.takeOp.freeCount = if s.host.isEmpty then s.freeCount + 1 else s.freeCount := rfl
@[simp] theorem State.takeOp_reg (q : RegIdx) : s.takeOp.reg q = s.reg q := rfl

/-! ### beginCycle -/

@[simp] theorem State.beginCycle_v (input : CycleInput) : (s.beginCycle input).v = s.v := rfl
@[simp] theorem State.beginCycle_pc (input : CycleInput) : (s.beginCycle input).pc = s.pc := rfl
@[simp] theorem State.beginCycle_i (input : CycleInput) : (s.beginCycle input).i = s.i := rfl
@[simp] theorem State.beginCycle_stack (input : CycleInput) : (s.beginCycle input).stack = s.stack := rfl
@[simp] theorem State.beginCycle_dt (input : CycleInput) : (s.beginCycle input).dt = s.dt := rfl
@[simp] theorem State.beginCycle_st (input : CycleInput) : (s.beginCycle input).st = s.st := rfl
@[simp] theorem State.beginCycle_mem (input : CycleInput) : (s.beginCycle input).mem = s.mem := rfl
@[simp] theorem State.beginCycle_disp (input : CycleInput) : (s.beginCycle input).disp = s.disp := rfl
@[simp] theorem State.beginCycle_dirty (input : CycleInput) : (s.beginCycle input).dirty = s.dirty := rfl
@[simp] theorem State.beginCycle_config (input : CycleInput) : (s.beginCycle input).config = s.config := rfl
@[simp] theorem State.beginCycle_fault (input : CycleInput) : (s.beginCycle input).fault = s.fault := rfl
@[simp] theorem State.beginCycle_events (input : CycleInput) : (s.beginCycle input).events = s.events := rfl
@[simp] theorem State.beginCycle_input (input : CycleInput) : (s.beginCycle input).input = input := rfl
@[simp] theorem State.beginCycle_host (input : CycleInput) : (s.beginCycle input).host = s.host.tail := rfl
@[simp] theorem State.beginCycle_freeCount (input : CycleInput) :
    (s.beginCycle input).freeCount = if s.host.isEmpty then s.freeCount + 1 else s.freeCount := rfl
@[simp] theorem State.beginCycle_reg (input : CycleInput) (q : RegIdx) : (s.beginCycle input).reg q = s.reg q := rfl

end Sys2Proof.Machine
end

