-- ==== Sys2Proof/Laws/Display.lean ====
section
/-! SUPPORT. The display: one pixel after a write, the shape, and what the sprite engine does to every pixel (44_display R141). -/

namespace Sys2Proof.Machine

/-! ### One pixel -/

/-- Reading a pixel after a write of one inside the grid. -/
theorem Grid.pixel_setPixel {g : Grid} {w h : Nat} (hg : g.shaped w h) {r c : Nat} (hr : r < h) (hc : c < w) (b : Bool)
    (r' c' : Nat) : (g.setPixel r c b).pixel r' c' = if r' = r ∧ c' = c then b else g.pixel r' c' := by
  have hlen : r < g.length := hg.1 ▸ hr
  have hrow : (g[r]'hlen).length = w := hg.2 _ (List.getElem_mem hlen)
  unfold Grid.pixel Grid.setPixel
  rw [List.getElem?_modify]
  by_cases hr' : r = r'
  · subst hr'
    rw [List.getElem?_eq_getElem hlen]
    by_cases hc' : c = c'
    · subst hc'
      simp [hrow, hc]
    · simp [hc', show ¬c' = c from Ne.symm hc']
  · simp [hr', show ¬r' = r from Ne.symm hr']

/-- A write of a pixel keeps the shape. -/
theorem Grid.shaped_setPixel {g : Grid} {w h : Nat} (hg : g.shaped w h) (r c : Nat) (b : Bool) : (g.setPixel r c b).shaped w h := by
  refine ⟨by simpa [Grid.setPixel] using hg.1, fun row hrow => ?_⟩
  obtain ⟨k, hk, rfl⟩ := List.mem_iff_getElem.1 hrow
  simp only [Grid.setPixel, List.getElem_modify]
  have hk' : k < g.length := by simpa [Grid.setPixel] using hk
  split
  · simpa using hg.2 _ (List.getElem_mem hk')
  · exact hg.2 _ (List.getElem_mem hk')

theorem Grid.shaped_blank (w h : Nat) : (Grid.blank w h).shaped w h :=
  ⟨by simp [Grid.blank], fun row hrow => by simp [(List.mem_replicate.1 hrow).2]⟩

/-- Every cell of the blank grid is false. -/
theorem Grid.pixel_blank (w h r c : Nat) : (Grid.blank w h).pixel r c = false := by
  unfold Grid.pixel Grid.blank
  rw [List.getElem?_replicate]
  split
  · simp only [Option.bind_some, List.getElem?_replicate]
    split <;> rfl
  · rfl

/-- Two grids of one shape that agree on every pixel are the same grid. -/
theorem Grid.ext_of_pixel {g g' : Grid} {w h : Nat} (hg : g.shaped w h) (hg' : g'.shaped w h)
    (he : ∀ r c, r < h → c < w → g.pixel r c = g'.pixel r c) : g = g' := by
  refine List.ext_getElem (hg.1.trans hg'.1.symm) fun r hr hr' => ?_
  have hw := hg.2 _ (List.getElem_mem hr)
  have hw' := hg'.2 _ (List.getElem_mem hr')
  refine List.ext_getElem (hw.trans hw'.symm) fun c hc hc' => ?_
  simpa [Grid.pixel, hr, hr', hc, hc'] using he r c (hg.1 ▸ hr) (hw ▸ hc)

/-! ### The sprite engine -/

theorem Canvas.shaped_flip {cv : Canvas} {w h : Nat} (hg : cv.grid.shaped w h) (r c : Nat) : (cv.flip r c).grid.shaped w h :=
  Grid.shaped_setPixel hg r c _

theorem shaped_drawBits {w h : Nat} (row : Nat) :
    ∀ (bits : List Bool) (col : Nat) {cv : Canvas}, cv.grid.shaped w h → (drawBits w row col bits cv).grid.shaped w h
  | [], _, _, hg => hg
  | bit :: bits, col, cv, hg => by
    unfold drawBits
    split
    · exact hg
    · refine shaped_drawBits row bits (col + 1) ?_
      split
      · exact Canvas.shaped_flip hg row col
      · exact hg

theorem shaped_drawRows {w h : Nat} (x0 : Nat) :
    ∀ (bytes : List Byte) (row : Nat) {cv : Canvas}, cv.grid.shaped w h → (drawRows w h x0 row bytes cv).grid.shaped w h
  | [], _, _, hg => hg
  | b :: bytes, row, cv, hg => by
    unfold drawRows
    split
    · exact hg
    · exact shaped_drawRows x0 bytes (row + 1) (shaped_drawBits row (spriteBits b) x0 hg)

/-- The bits of one row, from column `col` on, have a set bit over column `q` left of the edge. -/
def rowDot (w col : Nat) (bits : List Bool) (q : Nat) : Bool := decide (col ≤ q ∧ q < w) && (bits[q - col]?).getD false

theorem rowDot_cons {w col : Nat} (hcol : col < w) (bit : Bool) (bits : List Bool) (q : Nat) :
    rowDot w col (bit :: bits) q = ((bit && decide (q = col)) || rowDot w (col + 1) bits q) := by
  unfold rowDot
  rcases Nat.lt_trichotomy q col with h | h | h
  · simp [show ¬col ≤ q by omega, show ¬q = col by omega, show ¬col + 1 ≤ q by omega]
  · subst h
    simp [hcol]
  · simp [show col ≤ q by omega, show ¬q = col by omega, show col + 1 ≤ q by omega, show q - col = q - (col + 1) + 1 by omega]

/-- What drawing the bits of one row does to every pixel. -/
theorem pixel_drawBits {w h row : Nat} (hrow : row < h) :
    ∀ (bits : List Bool) (col : Nat) {cv : Canvas}, cv.grid.shaped w h → ∀ r q,
      (drawBits w row col bits cv).grid.pixel r q = (cv.grid.pixel r q ^^ (decide (r = row) && rowDot w col bits q))
  | [], col, cv, _, r, q => by simp [drawBits, rowDot]
  | bit :: bits, col, cv, hg, r, q => by
    unfold drawBits
    by_cases hcol : w ≤ col
    · have : rowDot w col (bit :: bits) q = false := by
        simp [rowDot, show ¬(col ≤ q ∧ q < w) by omega]
      simp [hcol, this]
    · have hcol' : col < w := by omega
      rw [if_neg hcol]
      cases bit
      · rw [if_neg (by simp), pixel_drawBits hrow bits (col + 1) hg, rowDot_cons hcol']
        simp
      · rw [if_pos rfl, pixel_drawBits hrow bits (col + 1) (Canvas.shaped_flip hg row col), rowDot_cons hcol']
        simp only [Canvas.flip, Grid.pixel_setPixel hg hrow hcol']
        by_cases hr : r = row
        · by_cases hq : q = col
          · have : rowDot w (col + 1) bits col = false := by simp [rowDot, show ¬col + 1 ≤ col by omega]
            subst hr hq
            simp [this]
          · simp [hr, hq]
        · simp [hr]

/-- When drawing the bits of one row collides. -/
theorem collided_drawBits {w h row : Nat} (hrow : row < h) :
    ∀ (bits : List Bool) (col : Nat) {cv : Canvas}, cv.grid.shaped w h →
      ((drawBits w row col bits cv).collided = true ↔
        cv.collided = true ∨ ∃ q, rowDot w col bits q = true ∧ cv.grid.pixel row q = true)
  | [], col, cv, _ => by simp [drawBits, rowDot]
  | bit :: bits, col, cv, hg => by
    unfold drawBits
    by_cases hcol : w ≤ col
    · have : ∀ q, rowDot w col (bit :: bits) q = false := fun q => by
        simp [rowDot, show ¬(col ≤ q ∧ q < w) by omega]
      simp [hcol, this]
    · have hcol' : col < w := by omega
      rw [if_neg hcol]
      simp only [rowDot_cons hcol']
      cases bit
      · rw [if_neg (by simp), collided_drawBits hrow bits (col + 1) hg]
        simp
      · rw [if_pos rfl, collided_drawBits hrow bits (col + 1) (Canvas.shaped_flip hg row col)]
        simp only [Canvas.flip, Grid.pixel_setPixel hg hrow hcol', Bool.or_eq_true, Bool.true_and, decide_eq_true_eq]
        constructor
        · rintro ((h1 | h1) | ⟨q, h1, h2⟩)
          · exact .inl h1
          · exact .inr ⟨col, .inl rfl, h1⟩
          · have hq : ¬q = col := by
              rintro rfl
              simp [rowDot, show ¬q + 1 ≤ q by omega] at h1
            exact .inr ⟨q, .inr h1, by simpa [hq] using h2⟩
        · rintro (h1 | ⟨q, h1 | h1, h2⟩)
          · exact .inl (.inl h1)
          · exact .inl (.inr (h1 ▸ h2))
          · have hq : ¬q = col := by
              rintro rfl
              simp [rowDot, show ¬q + 1 ≤ q by omega] at h1
            exact .inr ⟨q, h1, by simpa [hq] using h2⟩

/-- The bits of a byte from the left, seen from column `col`. -/
theorem rowDot_spriteBits (w col : Nat) (b : Byte) (q : Nat) :
    rowDot w col (spriteBits b) q = (decide (q < w) && (decide (col ≤ q ∧ q < col + 8) && b.getLsbD (7 - (q - col)))) := by
  unfold rowDot spriteBits
  by_cases h1 : col ≤ q
  · by_cases h2 : q < col + 8
    · simp [h1, h2, show q - col < 8 by omega]
    · simp [h1, h2, show ¬q - col < 8 by omega]
  · simp [h1]

theorem spriteDot_cons (b : Byte) (bytes : List Byte) (row col r q : Nat) :
    spriteDot (b :: bytes) row col r q =
      ((decide (r = row) && (decide (col ≤ q ∧ q < col + 8) && b.getLsbD (7 - (q - col)))) || spriteDot bytes (row + 1) col r q) := by
  unfold spriteDot
  rcases Nat.lt_trichotomy r row with h | h | h
  · simp [show ¬row ≤ r by omega, show ¬r = row by omega, show ¬row + 1 ≤ r by omega]
  · subst h
    simp
  · simp [show row ≤ r by omega, show ¬r = row by omega, show row + 1 ≤ r by omega, show r - row = r - (row + 1) + 1 by omega]

theorem spriteDot_above {bytes : List Byte} {row col r q : Nat} (h : r < row) : spriteDot bytes row col r q = false := by
  simp [spriteDot, show ¬row ≤ r by omega]

/-- What the sprite engine does to every pixel: inside the grid a set bit flips it, and nothing else changes (44_display R141). -/
theorem pixel_drawRows {w h : Nat} (x0 : Nat) :
    ∀ (bytes : List Byte) (row : Nat) {cv : Canvas}, cv.grid.shaped w h → ∀ r q,
      (drawRows w h x0 row bytes cv).grid.pixel r q =
        (cv.grid.pixel r q ^^ (decide (r < h ∧ q < w) && spriteDot bytes row x0 r q))
  | [], row, cv, _, r, q => by simp [drawRows, spriteDot]
  | b :: bytes, row, cv, hg, r, q => by
    unfold drawRows
    by_cases hrow : h ≤ row
    · by_cases hr : r < h
      · rw [if_pos hrow, spriteDot_above (by omega)]
        simp
      · simp [hrow, hr]
    · have hrow' : row < h := by omega
      rw [if_neg hrow, pixel_drawRows x0 bytes (row + 1) (shaped_drawBits row (spriteBits b) x0 hg),
        pixel_drawBits hrow' _ _ hg, rowDot_spriteBits, spriteDot_cons]
      by_cases hr : r = row
      · subst hr
        rw [spriteDot_above (Nat.lt_succ_self r)]
        simp [hrow']
      · simp [hr]

/-- When the sprite engine collides: a set bit inside the grid lands on a pixel that was set before the draw (44_display R141). -/
theorem collided_drawRows {w h : Nat} (x0 : Nat) :
    ∀ (bytes : List Byte) (row : Nat) {cv : Canvas}, cv.grid.shaped w h →
      ((drawRows w h x0 row bytes cv).collided = true ↔
        cv.collided = true ∨ ∃ r q, r < h ∧ q < w ∧ spriteDot bytes row x0 r q = true ∧ cv.grid.pixel r q = true)
  | [], row, cv, _ => by simp [drawRows, spriteDot]
  | b :: bytes, row, cv, hg => by
    unfold drawRows
    by_cases hrow : h ≤ row
    · have : ∀ r q, r < h → spriteDot (b :: bytes) row x0 r q = false := fun r q hr => spriteDot_above (by omega)
      simp only [hrow, if_true]
      refine ⟨.inl, ?_⟩
      rintro (h1 | ⟨r, q, hr, -, hd, -⟩)
      · exact h1
      · simp [this r q hr] at hd
    · have hrow' : row < h := by omega
      rw [if_neg hrow, collided_drawRows x0 bytes (row + 1) (shaped_drawBits row (spriteBits b) x0 hg),
        collided_drawBits hrow' _ _ hg]
      simp only [pixel_drawBits hrow' _ _ hg, rowDot_spriteBits, spriteDot_cons, Bool.or_eq_true, Bool.and_eq_true,
        decide_eq_true_eq]
      constructor
      · rintro ((h1 | ⟨q, ⟨hq, h1⟩, h2⟩) | ⟨r, q, hr, hq, h1, h2⟩)
        · exact .inl h1
        · exact .inr ⟨row, q, hrow', hq, .inl ⟨rfl, h1⟩, h2⟩
        · have hne : ¬r = row := by
            rintro rfl
            rw [spriteDot_above (Nat.lt_succ_self r)] at h1
            cases h1
          exact .inr ⟨r, q, hr, hq, .inr h1, by simpa [hne] using h2⟩
      · rintro (h1 | ⟨r, q, hr, hq, ⟨rfl, h1⟩ | h1, h2⟩)
        · exact .inl (.inl h1)
        · exact .inl (.inr ⟨q, ⟨hq, h1⟩, h2⟩)
        · have hne : ¬r = row := by
            rintro rfl
            rw [spriteDot_above (Nat.lt_succ_self r)] at h1
            cases h1
          exact .inr ⟨r, q, hr, hq, h1, by simpa [hne] using h2⟩

end Sys2Proof.Machine
end

