-- ==== Sys2Proof/Laws/Encoding.lean ====
section
/-! SUPPORT. The bits of an encoded word, its fields, and a word from its fields (30_encoding R72, R73). -/

namespace Sys2Proof

/-! ### Bits of an encoded word -/

theorem bit_encodeNNN (a : BitVec 4) (nnn : BitVec 12) (k : Nat) :
    (encodeNNN a nnn).getLsbD k = if k < 12 then nnn.getLsbD k else a.getLsbD (k - 12) :=
  BitVec.getLsbD_append

theorem bit_encodeXNN (a : BitVec 4) (x : RegIdx) (nn : Byte) (k : Nat) :
    (encodeXNN a x nn).getLsbD k =
      if k < 8 then nn.getLsbD k else if k - 8 < 4 then (regBits x).getLsbD (k - 8) else a.getLsbD (k - 8 - 4) := by
  refine (BitVec.getLsbD_append (x := a ++ regBits x) (y := nn)).trans ?_
  rw [BitVec.getLsbD_append]

theorem bit_encodeXYN (a : BitVec 4) (x y : RegIdx) (n : BitVec 4) (k : Nat) :
    (encodeXYN a x y n).getLsbD k =
      if k < 4 then n.getLsbD k else if k - 4 < 4 then (regBits y).getLsbD (k - 4)
      else if k - 4 - 4 < 4 then (regBits x).getLsbD (k - 4 - 4) else a.getLsbD (k - 4 - 4 - 4) := by
  refine (BitVec.getLsbD_append (x := a ++ regBits x ++ regBits y) (y := n)).trans ?_
  rw [BitVec.getLsbD_append, BitVec.getLsbD_append]

theorem toFin_eq_of_regBits {b : BitVec 4} {r : RegIdx} (h : b = regBits r) : b.toFin = r := by
  rw [h, regBits, BitVec.toFin_ofFin]

/-! ### Fields of an encoded word -/

@[simp] theorem fieldOp4_encodeNNN (a : BitVec 4) (nnn : BitVec 12) : fieldOp4 (encodeNNN a nnn) = a := by
  refine BitVec.eq_of_getLsbD_eq fun i hi => ?_
  simp [fieldOp4, bit_encodeNNN, hi, show ¬12 + i < 12 by omega]

@[simp] theorem fieldNNN_encodeNNN (a : BitVec 4) (nnn : BitVec 12) : fieldNNN (encodeNNN a nnn) = nnn := by
  refine BitVec.eq_of_getLsbD_eq fun i hi => ?_
  simp [fieldNNN, bit_encodeNNN, hi]

@[simp] theorem fieldOp4_encodeXNN (a : BitVec 4) (x : RegIdx) (nn : Byte) : fieldOp4 (encodeXNN a x nn) = a := by
  refine BitVec.eq_of_getLsbD_eq fun i hi => ?_
  simp [fieldOp4, bit_encodeXNN, hi, show ¬12 + i < 8 by omega, show ¬12 + i - 8 < 4 by omega,
    show 12 + i - 8 - 4 = i by omega]

@[simp] theorem fieldX_encodeXNN (a : BitVec 4) (x : RegIdx) (nn : Byte) : fieldX (encodeXNN a x nn) = x := by
  refine toFin_eq_of_regBits (BitVec.eq_of_getLsbD_eq fun i hi => ?_)
  simp [bit_encodeXNN, hi, show ¬8 + i < 8 by omega]

@[simp] theorem fieldNN_encodeXNN (a : BitVec 4) (x : RegIdx) (nn : Byte) : fieldNN (encodeXNN a x nn) = nn := by
  refine BitVec.eq_of_getLsbD_eq fun i hi => ?_
  simp [fieldNN, bit_encodeXNN, hi]

@[simp] theorem fieldOp4_encodeXYN (a : BitVec 4) (x y : RegIdx) (n : BitVec 4) : fieldOp4 (encodeXYN a x y n) = a := by
  refine BitVec.eq_of_getLsbD_eq fun i hi => ?_
  simp [fieldOp4, bit_encodeXYN, hi, show ¬12 + i < 4 by omega, show ¬12 + i - 4 < 4 by omega,
    show ¬12 + i - 4 - 4 < 4 by omega, show 12 + i - 4 - 4 - 4 = i by omega]

@[simp] theorem fieldX_encodeXYN (a : BitVec 4) (x y : RegIdx) (n : BitVec 4) : fieldX (encodeXYN a x y n) = x := by
  refine toFin_eq_of_regBits (BitVec.eq_of_getLsbD_eq fun i hi => ?_)
  simp [bit_encodeXYN, hi, show ¬8 + i < 4 by omega, show ¬8 + i - 4 < 4 by omega, show 8 + i - 4 - 4 = i by omega]

@[simp] theorem fieldY_encodeXYN (a : BitVec 4) (x y : RegIdx) (n : BitVec 4) : fieldY (encodeXYN a x y n) = y := by
  refine toFin_eq_of_regBits (BitVec.eq_of_getLsbD_eq fun i hi => ?_)
  simp [bit_encodeXYN, hi, show ¬4 + i < 4 by omega]

@[simp] theorem fieldN_encodeXYN (a : BitVec 4) (x y : RegIdx) (n : BitVec 4) : fieldN (encodeXYN a x y n) = n := by
  refine BitVec.eq_of_getLsbD_eq fun i hi => ?_
  simp [fieldN, bit_encodeXYN, hi]

/-! ### A word from its fields -/

theorem encodeNNN_fields (op : Word) : encodeNNN (fieldOp4 op) (fieldNNN op) = op := by
  refine BitVec.eq_of_getLsbD_eq fun i hi => ?_
  rw [bit_encodeNNN]
  simp only [fieldOp4, fieldNNN, BitVec.getLsbD_extractLsb']
  split
  · simp [*]
  · simp [show 12 + (i - 12) = i by omega, show i - 12 < 4 by omega]

theorem encodeXNN_fields (op : Word) : encodeXNN (fieldOp4 op) (fieldX op) (fieldNN op) = op := by
  refine BitVec.eq_of_getLsbD_eq fun i hi => ?_
  rw [bit_encodeXNN]
  simp only [fieldOp4, fieldX, fieldNN, regBits, BitVec.ofFin_toFin, BitVec.getLsbD_extractLsb']
  split
  · simp [*]
  · split
    · simp [*, show 8 + (i - 8) = i by omega]
    · simp [show 12 + (i - 8 - 4) = i by omega, show i - 8 - 4 < 4 by omega]

theorem encodeXYN_fields (op : Word) : encodeXYN (fieldOp4 op) (fieldX op) (fieldY op) (fieldN op) = op := by
  refine BitVec.eq_of_getLsbD_eq fun i hi => ?_
  rw [bit_encodeXYN]
  simp only [fieldOp4, fieldX, fieldY, fieldN, regBits, BitVec.ofFin_toFin, BitVec.getLsbD_extractLsb']
  split
  · simp [*]
  · split
    · simp [*, show 4 + (i - 4) = i by omega]
    · split
      · simp [*, show 8 + (i - 4 - 4) = i by omega]
      · simp [show 12 + (i - 4 - 4 - 4) = i by omega, show i - 4 - 4 - 4 < 4 by omega]

/-! ### The two bytes of a word -/

/-- A word laid out high byte first and read back big-endian is that word (20_memory R52). -/
@[simp] theorem wordOfBytes_bytes (op : Word) : wordOfBytes (highByte op) (lowByte op) = op := by
  refine BitVec.eq_of_getLsbD_eq fun i hi => ?_
  refine (BitVec.getLsbD_append (x := highByte op) (y := lowByte op)).trans ?_
  split
  · simp [lowByte, *]
  · simp [highByte, show 8 + (i - 8) = i by omega, show i - 8 < 8 by omega]

/-! ### The masks of the opcode map on an encoded word -/

theorem encodeNNN_mask (a : BitVec 4) (nnn : BitVec 12) : encodeNNN a nnn &&& 0xF000#16 = encodeNNN a 0 := by
  refine BitVec.eq_of_getLsbD_eq fun i hi => ?_
  rw [BitVec.getLsbD_and, bit_encodeNNN, bit_encodeNNN]
  interval_cases i <;> simp

theorem encodeXNN_mask (a : BitVec 4) (x : RegIdx) (nn : Byte) : encodeXNN a x nn &&& 0xF000#16 = encodeXNN a 0 0 := by
  refine BitVec.eq_of_getLsbD_eq fun i hi => ?_
  rw [BitVec.getLsbD_and, bit_encodeXNN, bit_encodeXNN]
  interval_cases i <;> simp [regBits]

theorem encodeXNN_maskLow (a : BitVec 4) (x : RegIdx) (nn : Byte) : encodeXNN a x nn &&& 0xF0FF#16 = encodeXNN a 0 nn := by
  refine BitVec.eq_of_getLsbD_eq fun i hi => ?_
  rw [BitVec.getLsbD_and, bit_encodeXNN, bit_encodeXNN]
  interval_cases i <;> simp [regBits]

theorem encodeXYN_mask (a : BitVec 4) (x y : RegIdx) (n : BitVec 4) : encodeXYN a x y n &&& 0xF000#16 = encodeXYN a 0 0 0 := by
  refine BitVec.eq_of_getLsbD_eq fun i hi => ?_
  rw [BitVec.getLsbD_and, bit_encodeXYN, bit_encodeXYN]
  interval_cases i <;> simp [regBits]

theorem encodeXYN_maskLow (a : BitVec 4) (x y : RegIdx) (n : BitVec 4) : encodeXYN a x y n &&& 0xF00F#16 = encodeXYN a 0 0 n := by
  refine BitVec.eq_of_getLsbD_eq fun i hi => ?_
  rw [BitVec.getLsbD_and, bit_encodeXYN, bit_encodeXYN]
  interval_cases i <;> simp [regBits]

end Sys2Proof
end

