-- ==== Sys2Proof/Laws/Memory.lean ====
section
/-! SUPPORT. Memory: reading after writing, the canonical form, runs of bytes, the memory RESET leaves, the range check. -/

namespace Sys2Proof.Machine

/-! ### Reading -/

theorem Memory.read_nil (a : Nat) : Memory.read [] a = Memory.unlisted a := rfl

theorem Memory.read_cell (k : Nat) (b : Byte) (m : Memory) (a : Nat) :
    Memory.read ((k, b) :: m) a = if k = a then b else Memory.read m a := by
  simp only [Memory.read, Memory.lookup]
  split <;> rfl

/-- An address below every listed one reads as unlisted. -/
theorem Memory.read_below {m : Memory} {a : Nat} (h : ∀ c ∈ m, a < c.1) : m.read a = Memory.unlisted a := by
  induction m with
  | nil => rfl
  | cons c m ih =>
    obtain ⟨k, b⟩ := c
    have hk : a < k := h (k, b) (by simp)
    rw [Memory.read_cell, if_neg (by omega), ih fun c hc => h c (by simp [hc])]

/-- A cell put before a list whose addresses are all above its own. -/
theorem Memory.read_cons {m : Memory} {a : Nat} (b : Byte) (q : Nat) (h : ∀ c ∈ m, a < c.1) :
    Memory.read (Memory.cons a b m) q = if q = a then b else m.read q := by
  unfold Memory.cons
  by_cases hb : b = Memory.unlisted a
  · rw [if_pos hb]
    by_cases hq : q = a
    · rw [if_pos hq, hq, Memory.read_below h, hb]
    · rw [if_neg hq]
  · rw [if_neg hb, Memory.read_cell]
    by_cases hq : q = a
    · simp [hq]
    · rw [if_neg hq, if_neg (by omega)]

/-- Reading after an insertion into a rising list. -/
theorem Memory.read_insert (a : Nat) (b : Byte) (q : Nat) :
    ∀ m : Memory, m.Pairwise (fun c d => c.1 < d.1) → (m.insert a b).read q = if q = a then b else m.read q
  | [], _ => Memory.read_cons b q (by simp)
  | (k, c) :: m, h => by
    have hm : ∀ d ∈ m, k < d.1 := (List.pairwise_cons.1 h).1
    unfold Memory.insert
    split
    · rename_i hak
      refine Memory.read_cons b q ?_
      intro d hd
      rcases List.mem_cons.1 hd with rfl | hd
      · exact hak
      · exact Nat.lt_trans hak (hm d hd)
    · split
      · rename_i hak
        subst hak
        rw [Memory.read_cons b q hm, Memory.read_cell]
        split
        · rfl
        · rw [if_neg (by omega)]
      · rw [Memory.read_cell, Memory.read_cell, Memory.read_insert a b q m (List.pairwise_cons.1 h).2]
        split
        · rw [if_neg (by omega)]
        · rfl

/-- Reading after a write (20_memory R51, R58). -/
theorem Memory.read_write {m : Memory} (hm : m.wf) {a : Nat} (ha : a < memSize) (b : Byte) (q : Nat) :
    (m.write a b).read q = if q = a then b else m.read q := by
  rw [Memory.write, if_pos ha]
  exact Memory.read_insert a b q m hm.1

/-! ### The canonical form -/

theorem Memory.mem_cons {a : Nat} {b : Byte} {m : Memory} {c : Host.Cell} (h : c ∈ Memory.cons a b m) :
    (c = (a, b) ∧ b ≠ Memory.unlisted a) ∨ c ∈ m := by
  unfold Memory.cons at h
  split at h
  · exact .inr h
  · rcases List.mem_cons.1 h with h' | h'
    · exact .inl ⟨h', ‹_›⟩
    · exact .inr h'

theorem Memory.mem_insert (a : Nat) (b : Byte) {c : Host.Cell} :
    ∀ {m : Memory}, c ∈ m.insert a b → (c = (a, b) ∧ b ≠ Memory.unlisted a) ∨ c ∈ m
  | [], h => Memory.mem_cons h
  | (k, d) :: m, h => by
    unfold Memory.insert at h
    split at h
    · exact Memory.mem_cons h
    · split at h
      · rcases Memory.mem_cons h with h' | h'
        · exact .inl h'
        · exact .inr (List.mem_cons_of_mem _ h')
      · rcases List.mem_cons.1 h with h' | h'
        · exact .inr (h' ▸ List.mem_cons_self)
        · rcases Memory.mem_insert a b h' with h'' | h''
          · exact .inl h''
          · exact .inr (List.mem_cons_of_mem _ h'')

theorem Memory.pairwise_cons {a : Nat} {b : Byte} {m : Memory} (h : m.Pairwise (fun c d => c.1 < d.1))
    (ha : ∀ c ∈ m, a < c.1) : (Memory.cons a b m).Pairwise (fun c d => c.1 < d.1) := by
  unfold Memory.cons
  split
  · exact h
  · exact List.pairwise_cons.2 ⟨ha, h⟩

theorem Memory.pairwise_insert (a : Nat) (b : Byte) :
    ∀ {m : Memory}, m.Pairwise (fun c d => c.1 < d.1) → (m.insert a b).Pairwise (fun c d => c.1 < d.1)
  | [], h => Memory.pairwise_cons h (by simp)
  | (k, c) :: m, h => by
    have hm : ∀ d ∈ m, k < d.1 := (List.pairwise_cons.1 h).1
    unfold Memory.insert
    split
    · rename_i hak
      refine Memory.pairwise_cons h ?_
      intro d hd
      rcases List.mem_cons.1 hd with rfl | hd
      · exact hak
      · exact Nat.lt_trans hak (hm d hd)
    · split
      · rename_i hak
        exact Memory.pairwise_cons (List.pairwise_cons.1 h).2 (hak ▸ hm)
      · refine List.pairwise_cons.2 ⟨?_, Memory.pairwise_insert a b (List.pairwise_cons.1 h).2⟩
        intro d hd
        rcases Memory.mem_insert a b hd with ⟨rfl, -⟩ | hd
        · show k < a
          omega
        · exact hm d hd

/-- A write keeps the canonical form. -/
theorem Memory.wf_write {m : Memory} (hm : m.wf) (a : Nat) (b : Byte) : (m.write a b).wf := by
  unfold Memory.write
  split
  · rename_i ha
    refine ⟨Memory.pairwise_insert a b hm.1, fun c hc => ?_⟩
    rcases Memory.mem_insert a b hc with ⟨rfl, hb⟩ | hc
    · exact ⟨ha, hb⟩
    · exact hm.2 c hc
  · exact hm

/-- Equal memories are equal data: two canonical memories that read the same at every address are the same list. -/
theorem Memory.ext_of_read : ∀ {m m' : Memory}, m.wf → m'.wf → (∀ a, m.read a = m'.read a) → m = m'
  | [], [], _, _, _ => rfl
  | [], (k, b) :: m, _, h', he => by
    have := he k
    rw [Memory.read_nil, Memory.read_cell, if_pos rfl] at this
    exact absurd this.symm (h'.2 (k, b) (by simp)).2
  | (k, b) :: m, [], h, _, he => by
    have := he k
    rw [Memory.read_nil, Memory.read_cell, if_pos rfl] at this
    exact absurd this (h.2 (k, b) (by simp)).2
  | (k, b) :: m, (k', b') :: m', h, h', he => by
    have hm := (List.pairwise_cons.1 h.1)
    have hm' := (List.pairwise_cons.1 h'.1)
    have hb := (h.2 (k, b) (by simp)).2
    have hb' := (h'.2 (k', b') (by simp)).2
    have hk : k = k' := by
      rcases Nat.lt_trichotomy k k' with hlt | heq | hlt
      · have := he k
        rw [Memory.read_cell, if_pos rfl, Memory.read_cell, if_neg (by omega),
          Memory.read_below fun c hc => Nat.lt_trans hlt (hm'.1 c hc)] at this
        exact absurd this hb
      · exact heq
      · have := he k'
        rw [Memory.read_cell, if_neg (by omega), Memory.read_cell, if_pos rfl,
          Memory.read_below fun c hc => Nat.lt_trans hlt (hm.1 c hc)] at this
        exact absurd this.symm hb'
    subst hk
    have hbb : b = b' := by simpa [Memory.read_cell] using he k
    subst hbb
    congr 1
    refine Memory.ext_of_read ⟨hm.2, fun c hc => h.2 c (by simp [hc])⟩ ⟨hm'.2, fun c hc => h'.2 c (by simp [hc])⟩ fun a => ?_
    by_cases ha : k = a
    · subst ha
      rw [Memory.read_below hm.1, Memory.read_below hm'.1]
    · simpa [Memory.read_cell, ha] using he a

/-! ### Runs of bytes -/

theorem Memory.wf_writeBytes : ∀ {m : Memory}, m.wf → ∀ (a : Nat) (bs : List Byte), (m.writeBytes a bs).wf
  | _, hm, _, [] => hm
  | _, hm, a, b :: bs => Memory.wf_writeBytes (Memory.wf_write hm a b) (a + 1) bs

/-- Reading after a run of bytes that lies inside memory is stored. -/
theorem Memory.read_writeBytes :
    ∀ {m : Memory}, m.wf → ∀ (a : Nat) (bs : List Byte), a + bs.length ≤ memSize → ∀ q,
      (m.writeBytes a bs).read q = if a ≤ q ∧ q < a + bs.length then bs.getD (q - a) 0 else m.read q
  | m, _, a, [], _, q => by simp [Memory.writeBytes]
  | m, hm, a, b :: bs, h, q => by
    have h' : a + 1 + bs.length ≤ memSize := by simpa [Nat.add_assoc, Nat.add_comm 1] using h
    rw [Memory.writeBytes, Memory.read_writeBytes (Memory.wf_write hm a b) (a + 1) bs h' q,
      Memory.read_write hm (by omega)]
    simp only [List.length_cons]
    by_cases hq : q = a
    · subst hq
      simp
    · by_cases hin : a + 1 ≤ q ∧ q < a + 1 + bs.length
      · rw [if_pos hin, if_pos (by omega), show q - a = (q - (a + 1)) + 1 by omega]
        rfl
      · rw [if_neg hin, if_neg hq, if_neg (by omega)]

theorem Memory.getElem?_readBytes (m : Memory) (a n k : Nat) :
    (m.readBytes a n)[k]? = if k < n then some (m.read (a + k)) else none := by
  simp only [Memory.readBytes, List.getElem?_map]
  by_cases h : k < n
  · simp [h]
  · simp [h]

@[simp] theorem Memory.length_readBytes (m : Memory) (a n : Nat) : (m.readBytes a n).length = n := by
  simp [Memory.readBytes]

/-! ### The memory RESET leaves -/

theorem Memory.lookup_filterMap (f : Nat → Byte) (q : Nat) :
    ∀ (l : List Nat), Memory.lookup (l.filterMap fun a => if f a = Memory.unlisted a then none else some (a, f a)) q
      = if q ∈ l ∧ f q ≠ Memory.unlisted q then some (f q) else none
  | [] => by simp [Memory.lookup]
  | a :: l => by
    by_cases ha : f a = Memory.unlisted a
    · rw [List.filterMap_cons, if_pos ha, Memory.lookup_filterMap f q l]
      by_cases hq : q = a
      · subst hq
        simp [ha]
      · simp [hq]
    · rw [List.filterMap_cons, if_neg ha]
      simp only [Memory.lookup, Memory.lookup_filterMap f q l]
      by_cases hq : a = q
      · subst hq
        simp [ha]
      · simp [hq, show ¬q = a from Ne.symm hq]

/-- Reading the memory RESET leaves (70_reset R201). -/
theorem Memory.read_ofReset (fontBase : Nat) (rom : List Byte) {a : Nat} (ha : a < memSize) :
    (Memory.ofReset fontBase rom).read a = resetByte fontBase rom a := by
  unfold Memory.read Memory.ofReset
  rw [Memory.lookup_filterMap]
  by_cases h : resetByte fontBase rom a = Memory.unlisted a
  · simp [h]
  · simp [h, show a < 4096 from ha]

/-- The memory RESET leaves is canonical. -/
theorem Memory.wf_ofReset (fontBase : Nat) (rom : List Byte) : (Memory.ofReset fontBase rom).wf := by
  constructor
  · refine List.Pairwise.filterMap _ ?_ List.pairwise_lt_range
    intro a a' hlt c hc d hd
    split at hc <;> split at hd <;> simp_all
    subst hc hd
    exact hlt
  · intro c hc
    obtain ⟨a, ha, hc⟩ := List.mem_filterMap.1 hc
    split at hc
    · cases hc
    · cases hc
      exact ⟨List.mem_range.1 ha, ‹_›⟩

/-- With the default FONT_BASE and no program nothing is listed. -/
theorem Memory.ofReset_default : Memory.ofReset 0x050 [] = [] := by
  have h : ∀ a, resetByte 0x050 [] a = Memory.unlisted a := by
    intro a
    have : ¬(programStart ≤ a ∧ a < programStart + 0) := by omega
    simp [resetByte, Memory.unlisted, this]
  simp [Memory.ofReset, h]

/-! ### The range check and the fault's entry -/

theorem rangeOk_iff (base len : Nat) : rangeOk base len = true ↔ len = 0 ∨ base + len ≤ memSize := by
  simp [rangeOk]

/-- A checked effect: it happens when the whole range lies inside memory, else MEM_RANGE is raised (20_memory R51, 60_exceptions R183). -/
theorem State.checked_cases (s : State) (len : Nat) (effect : State) :
    ((len = 0 ∨ s.i.toNat + len ≤ memSize) ∧ s.checked len effect = effect) ∨
    ((0 < len ∧ memSize < s.i.toNat + len) ∧
      s.checked len effect = s.raise (.memRange s.pc0 (max s.i.toNat memSize))) := by
  unfold State.checked
  by_cases h : rangeOk s.i.toNat len = true
  · exact .inl ⟨(rangeOk_iff _ _).1 h, if_pos h⟩
  · refine .inr ⟨?_, if_neg h⟩
    rw [rangeOk_iff] at h
    omega

/-- Raising a fault changes pc and the latch alone. -/
theorem State.samePart_raise (s : State) (f : LatchedFault) {p : Part} (h : p ≠ .pc) (h' : p ≠ .fault) :
    s.samePart (s.raise f) p := by
  cases p <;> first | exact absurd rfl h | exact absurd rfl h' | rfl | exact fun _ => rfl

end Sys2Proof.Machine
end

