-- ==== Sys2Proof/Laws/PerInstr.lean ====
section
/-! SUPPORT. Per instruction: the encoded word matches the instruction's own row of the opcode map, under the row's mask (30_encoding R74). -/

namespace Sys2Proof.Laws.MatchesRow

/-- The word of `i` under its row's mask is the row's match (30_encoding R74). -/
def Statement (i : Instr) : Prop := encodeWord i &&& (opcodeRow i).1 = (opcodeRow i).2

theorem sys (nnn : BitVec 12) : Statement (.sys nnn) := (encodeNNN_mask _ nnn).trans rfl
theorem cls : Statement .cls := rfl
theorem ret : Statement .ret := rfl
theorem jp (nnn : BitVec 12) : Statement (.jp nnn) := (encodeNNN_mask _ nnn).trans rfl
theorem call (nnn : BitVec 12) : Statement (.call nnn) := (encodeNNN_mask _ nnn).trans rfl
theorem seImm (x : RegIdx) (nn : Byte) : Statement (.seImm x nn) := (encodeXNN_mask _ x nn).trans rfl
theorem sneImm (x : RegIdx) (nn : Byte) : Statement (.sneImm x nn) := (encodeXNN_mask _ x nn).trans rfl
theorem seReg (x y : RegIdx) : Statement (.seReg x y) := (encodeXYN_maskLow _ x y _).trans rfl
theorem ldImm (x : RegIdx) (nn : Byte) : Statement (.ldImm x nn) := (encodeXNN_mask _ x nn).trans rfl
theorem addImm (x : RegIdx) (nn : Byte) : Statement (.addImm x nn) := (encodeXNN_mask _ x nn).trans rfl
theorem ldReg (x y : RegIdx) : Statement (.ldReg x y) := (encodeXYN_maskLow _ x y _).trans rfl
theorem orReg (x y : RegIdx) : Statement (.orReg x y) := (encodeXYN_maskLow _ x y _).trans rfl
theorem andReg (x y : RegIdx) : Statement (.andReg x y) := (encodeXYN_maskLow _ x y _).trans rfl
theorem xorReg (x y : RegIdx) : Statement (.xorReg x y) := (encodeXYN_maskLow _ x y _).trans rfl
theorem addReg (x y : RegIdx) : Statement (.addReg x y) := (encodeXYN_maskLow _ x y _).trans rfl
theorem subReg (x y : RegIdx) : Statement (.subReg x y) := (encodeXYN_maskLow _ x y _).trans rfl
theorem shrReg (x y : RegIdx) : Statement (.shrReg x y) := (encodeXYN_maskLow _ x y _).trans rfl
theorem subnReg (x y : RegIdx) : Statement (.subnReg x y) := (encodeXYN_maskLow _ x y _).trans rfl
theorem shlReg (x y : RegIdx) : Statement (.shlReg x y) := (encodeXYN_maskLow _ x y _).trans rfl
theorem sneReg (x y : RegIdx) : Statement (.sneReg x y) := (encodeXYN_maskLow _ x y _).trans rfl
theorem ldI (nnn : BitVec 12) : Statement (.ldI nnn) := (encodeNNN_mask _ nnn).trans rfl
theorem jpV0 (nnn : BitVec 12) : Statement (.jpV0 nnn) := (encodeNNN_mask _ nnn).trans rfl
theorem rnd (x : RegIdx) (nn : Byte) : Statement (.rnd x nn) := (encodeXNN_mask _ x nn).trans rfl
theorem drw (x y : RegIdx) (n : BitVec 4) : Statement (.drw x y n) := (encodeXYN_mask _ x y n).trans rfl
theorem skp (x : RegIdx) : Statement (.skp x) := (encodeXNN_maskLow _ x _).trans rfl
theorem sknp (x : RegIdx) : Statement (.sknp x) := (encodeXNN_maskLow _ x _).trans rfl
theorem ldVxDt (x : RegIdx) : Statement (.ldVxDt x) := (encodeXNN_maskLow _ x _).trans rfl
theorem ldVxK (x : RegIdx) : Statement (.ldVxK x) := (encodeXNN_maskLow _ x _).trans rfl
theorem ldDtVx (x : RegIdx) : Statement (.ldDtVx x) := (encodeXNN_maskLow _ x _).trans rfl
theorem ldStVx (x : RegIdx) : Statement (.ldStVx x) := (encodeXNN_maskLow _ x _).trans rfl
theorem addIVx (x : RegIdx) : Statement (.addIVx x) := (encodeXNN_maskLow _ x _).trans rfl
theorem ldFVx (x : RegIdx) : Statement (.ldFVx x) := (encodeXNN_maskLow _ x _).trans rfl
theorem ldBVx (x : RegIdx) : Statement (.ldBVx x) := (encodeXNN_maskLow _ x _).trans rfl
theorem ldMemVx (x : RegIdx) : Statement (.ldMemVx x) := (encodeXNN_maskLow _ x _).trans rfl
theorem ldVxMem (x : RegIdx) : Statement (.ldVxMem x) := (encodeXNN_maskLow _ x _).trans rfl

end Sys2Proof.Laws.MatchesRow
end

