-- ==== Sys2Proof/Laws/Registers.lean ====
section
/-! SUPPORT. Registers: reading after writing, the flag pair, the register load, the increment of I. -/

namespace Sys2Proof.Machine

/-- Reading a register after a write to one. -/
theorem State.reg_setReg (s : State) (r q : RegIdx) (b : Byte) :
    (s.setReg r b).reg q = if q = r then b else s.reg q := by
  simp only [State.reg, State.setReg, Vector.getElem_set]
  by_cases h : q = r
  · simp [h]
  · have : ¬r.val = q.val := fun e => h (Fin.ext e).symm
    simp [h, this]

@[simp] theorem State.reg_setReg_same (s : State) (r : RegIdx) (b : Byte) : (s.setReg r b).reg r = b := by
  simp [State.reg_setReg]

theorem State.reg_setReg_other (s : State) {r q : RegIdx} (b : Byte) (h : q ≠ r) : (s.setReg r b).reg q = s.reg q := by
  simp [State.reg_setReg, h]

/-- Reading a register after a flag write. -/
theorem State.reg_setFlag (s : State) (q : RegIdx) (b : Bool) :
    (s.setFlag b).reg q = if q = vf then flagByte b else s.reg q := State.reg_setReg s vf q (flagByte b)

/-- The result and the flag: the flag is written last (43_alu R139). -/
theorem State.reg_setResultFlag (s : State) (x q : RegIdx) (b : Byte) (flag : Bool) :
    (s.setResultFlag x b flag).reg q = if q = vf then flagByte flag else if q = x then b else s.reg q := by
  simp only [State.setResultFlag, State.reg_setFlag, State.reg_setReg]

/-- A flag and a result touch no part beside the registers. -/
theorem State.samePart_setResultFlag (s : State) (x : RegIdx) (b : Byte) (flag : Bool) (p : Part) :
    s.samePart (s.setResultFlag x b flag) p := by
  cases p <;> first | rfl | exact fun _ => rfl

theorem State.samePart_setReg (s : State) (x : RegIdx) (b : Byte) (p : Part) : s.samePart (s.setReg x b) p := by
  cases p <;> first | rfl | exact fun _ => rfl

/-- A part that reads the same in the second of two states and again in the third. -/
theorem State.samePart_trans {s t u : State} {p : Part} (h : s.samePart t p) (h' : t.samePart u p) : s.samePart u p := by
  cases p
  case mem => exact fun a => (h' a).trans (h a)
  all_goals exact Eq.trans h' h

theorem State.samePart_refl (s : State) (p : Part) : s.samePart s p := by
  cases p <;> first | rfl | exact fun _ => rfl

/-- The registers after a register load of `n` bytes (45_memory_index R151). -/
theorem State.reg_loadRegs (s : State) (base : Nat) (q : RegIdx) :
    ∀ n, n ≤ 16 → (s.loadRegs base n).reg q = if q.val < n then s.mem.read (base + q.val) else s.reg q
  | 0, _ => by simp [State.loadRegs]
  | n + 1, h => by
    have hval : (Fin.ofNat 16 n).val = n := Nat.mod_eq_of_lt (by omega)
    rw [State.loadRegs, State.reg_setReg, State.reg_loadRegs s base q n (by omega)]
    by_cases hq : q = Fin.ofNat 16 n
    · simp [hq, Nat.mod_eq_of_lt (show n < 16 by omega)]
    · have : q.val ≠ n := fun e => hq (Fin.ext (by rw [hval, e]))
      simp only [hq, if_false]
      split <;> split <;> first | rfl | omega

/-- A register load touches no part beside the registers. -/
theorem State.samePart_loadRegs (s : State) (base : Nat) (p : Part) : ∀ n, s.samePart (s.loadRegs base n) p
  | 0 => s.samePart_refl p
  | n + 1 => State.samePart_trans (s.samePart_loadRegs base p n) (State.samePart_setReg _ _ _ p)

/-- The increment of I touches I alone. -/
theorem State.samePart_bumpI (s : State) (n : Nat) {p : Part} (h : p ≠ .i) : s.samePart (s.bumpI n) p := by
  unfold State.bumpI
  split
  · cases p <;> first | exact absurd rfl h | rfl | exact fun _ => rfl
  · exact s.samePart_refl p

@[simp] theorem State.reg_bumpI (s : State) (n : Nat) (q : RegIdx) : (s.bumpI n).reg q = s.reg q := by
  unfold State.bumpI
  split <;> rfl

/-- I after the increment (45_memory_index R150, R151). -/
theorem State.i_bumpI (s : State) (n : Nat) :
    (s.bumpI n).i = if s.config.quirks.memIncrI then s.i + BitVec.ofNat 16 n else s.i := by
  unfold State.bumpI
  split <;> rfl

/-- A skip moves pc alone, by 2 where its condition holds. -/
theorem State.pc_skipIf (s : State) (c : Bool) : (s.skipIf c).pc = if c then s.pc + 2 else s.pc := by
  cases c <;> rfl

theorem State.samePart_skipIf (s : State) (c : Bool) {p : Part} (h : p ≠ .pc) : s.samePart (s.skipIf c) p := by
  cases c
  · exact s.samePart_refl p
  · cases p <;> first | exact absurd rfl h | rfl | exact fun _ => rfl

@[simp] theorem State.reg_skipIf (s : State) (c : Bool) (q : RegIdx) : (s.skipIf c).reg q = s.reg q := by
  cases c <;> rfl

/-- The bytes a register dump stores, one by one. -/
theorem State.getElem?_regBytes (s : State) (n k : Nat) :
    (s.regBytes n)[k]? = if k < n then some (s.reg (Fin.ofNat 16 k)) else none := by
  simp only [State.regBytes, List.getElem?_map]
  by_cases h : k < n
  · simp [h]
  · simp [h]

@[simp] theorem State.length_regBytes (s : State) (n : Nat) : (s.regBytes n).length = n := by
  simp [State.regBytes]

end Sys2Proof.Machine
end

