-- ==== Sys2Proof/Laws/Step.lean ====
section
/-! SUPPORT. What one step can do, said once: the cases of CYCLE and of the host's schedule. -/

namespace Sys2Proof.Machine

/-- The bytes of the fetch are the two bytes at pc (30_encoding R70). -/
theorem State.fetchBytes_eq (s : State) : s.fetchBytes = [s.mem.read s.pc.toNat, s.mem.read (s.pc.toNat + 1)] := rfl

/-- The word an instruction's two bytes make is that instruction's word. -/
theorem decode_bytes (op : Word) (rest : List Byte) :
    decode (highByte op :: lowByte op :: rest) =
      match decodeWord op with
      | some i => .ok (i, rest)
      | none => .error (.unknownOpcode op) := by
  cases h : decodeWord op <;> simp only [decode, wordOfBytes_bytes, h]

/-- What runs when the fetched bytes are the word `s.fetchWord`: the instruction it decodes to, or the unknown-word rule (30_encoding R76, R78). -/
theorem runBytes_fetch (s t : State) :
    runBytes s.fetchBytes s.fetchWord t =
      match decodeWord s.fetchWord with
      | some i => exec i t
      | none => .next (t.unknownWord s.fetchWord) := by
  simp only [runBytes, State.fetchBytes_eq, decode, State.fetchWord]
  cases decodeWord (wordOfBytes (s.mem.read s.pc.toNat) (s.mem.read (s.pc.toNat + 1))) <;> rfl

/-- Every CYCLE is one of four: frozen by the latch, a fetch fault, an instruction, an unknown word (60_exceptions R187). -/
theorem cycle_cases (s : State) :
    (s.fault ≠ none ∧ cycle s = .next s) ∨
    (s.fault = none ∧ memSize ≤ s.pc.toNat + 1 ∧ cycle s = .next (s.raise s.fetchFault)) ∨
    (∃ i, s.fault = none ∧ s.pc.toNat + 1 < memSize ∧ decodeWord s.fetchWord = some i ∧ cycle s = exec i (s.setPc (s.pc + 2))) ∨
    (s.fault = none ∧ s.pc.toNat + 1 < memSize ∧ decodeWord s.fetchWord = none ∧
      cycle s = .next ((s.setPc (s.pc + 2)).unknownWord s.fetchWord)) := by
  unfold cycle
  by_cases hf : s.fault = none
  · by_cases hp : s.pc.toNat + 1 < memSize
    · have hok : s.fetchOk = true := by simpa [State.fetchOk] using hp
      rw [if_neg (by simp [hf]), if_pos hok, runBytes_fetch]
      cases hd : decodeWord s.fetchWord with
      | some i => exact .inr (.inr (.inl ⟨i, hf, hp, rfl, rfl⟩))
      | none => exact .inr (.inr (.inr ⟨hf, hp, rfl, rfl⟩))
    · have hok : ¬s.fetchOk = true := by simpa [State.fetchOk] using hp
      rw [if_neg (by simp [hf]), if_neg hok]
      exact .inr (.inl ⟨hf, by omega, rfl⟩)
  · exact .inl ⟨hf, if_pos (by simpa [Option.isSome_iff_ne_none] using hf)⟩

/-- Every step is one operation of the host (10_state R33). -/
theorem step_cases (s : State) :
    (∃ input, s.nextOp = .cycle input ∧ step s = cycle (s.beginCycle input)) ∨
    (s.nextOp = .tick ∧ step s = .next (tick s.takeOp)) ∨
    (s.nextOp = .clearDirty ∧ step s = .next (clearDirty s.takeOp)) ∨
    (∃ rom config, s.nextOp = .reset rom config ∧ step s = resetOp rom config s.takeOp) := by
  unfold step hostStep
  cases s.nextOp with
  | cycle input => exact .inl ⟨input, rfl, rfl⟩
  | tick => exact .inr (.inl ⟨rfl, rfl⟩)
  | clearDirty => exact .inr (.inr (.inl ⟨rfl, rfl⟩))
  | reset rom config => exact .inr (.inr (.inr ⟨rom, config, rfl, rfl⟩))

/-- The head of a schedule is the next operation. -/
theorem State.nextOp_of_host {s : State} {o : HostOp} {rest : List HostOp} (h : s.host = o :: rest) : s.nextOp = o := by
  rw [State.nextOp, h, List.headD_cons]

/-- Past the end of the schedule the next operation is a free value. -/
theorem State.nextOp_of_nil {s : State} (h : s.host = []) : s.nextOp = Config.freeOp s.freeCount := by
  rw [State.nextOp, h, List.headD_nil]

/-- A RESET succeeds exactly within its limits (70_reset R200, 60_exceptions R184). -/
theorem resetOp_cases (rom : List Byte) (config : Config) (s : State) :
    (config.legal ∧ rom.length ≤ memSize - programStart ∧ resetOp rom config s = .next (s.constructed rom config)) ∨
    (config.legal ∧ memSize - programStart < rom.length ∧ resetOp rom config s = .fault (.romTooLarge rom.length)) ∨
    (¬config.legal ∧ resetOp rom config s = .refused .illegalParameters) := by
  unfold resetOp
  by_cases hc : config.legal
  · by_cases hr : memSize - programStart < rom.length
    · exact .inr (.inl ⟨hc, hr, by rw [if_neg (not_not.2 hc), if_pos hr]⟩)
    · exact .inl ⟨hc, by omega, by rw [if_neg (not_not.2 hc), if_neg hr]⟩
  · exact .inr (.inr ⟨hc, if_pos hc⟩)

/-! ### The machine RESET constructs, field by field -/

section

variable (s : State) (rom : List Byte) (config : Config)

@[simp] theorem State.constructed_v : (s.constructed rom config).v = Vector.replicate 16 0 := by simp only [State.constructed]
@[simp] theorem State.constructed_pc : (s.constructed rom config).pc = 0x200#16 := by simp only [State.constructed]
@[simp] theorem State.constructed_i : (s.constructed rom config).i = 0 := by simp only [State.constructed]
@[simp] theorem State.constructed_stack : (s.constructed rom config).stack = [] := by simp only [State.constructed]
@[simp] theorem State.constructed_dt : (s.constructed rom config).dt = 0 := by simp only [State.constructed]
@[simp] theorem State.constructed_st : (s.constructed rom config).st = 0 := by simp only [State.constructed]
@[simp] theorem State.constructed_mem : (s.constructed rom config).mem = Memory.ofReset config.fontBase rom := by simp only [State.constructed]
@[simp] theorem State.constructed_disp : (s.constructed rom config).disp = Grid.blank config.width config.height := by simp only [State.constructed]
@[simp] theorem State.constructed_dirty : (s.constructed rom config).dirty = false := by simp only [State.constructed]
@[simp] theorem State.constructed_config : (s.constructed rom config).config = config := by simp only [State.constructed]
@[simp] theorem State.constructed_fault : (s.constructed rom config).fault = none := by simp only [State.constructed]
@[simp] theorem State.constructed_input : (s.constructed rom config).input = s.input := by simp only [State.constructed]
@[simp] theorem State.constructed_host : (s.constructed rom config).host = s.host := by simp only [State.constructed]
@[simp] theorem State.constructed_events : (s.constructed rom config).events = s.events := by simp only [State.constructed]
@[simp] theorem State.constructed_freeCount : (s.constructed rom config).freeCount = s.freeCount := by simp only [State.constructed]

@[simp] theorem State.constructed_reg (q : RegIdx) : (s.constructed rom config).reg q = 0 := by
  simp only [State.reg, State.constructed_v, Vector.getElem_replicate]

end

/-! ### The operation taken -/

/-- Taking an operation touches only the schedule and the counter of free values. -/
theorem State.samePart_takeOp (s : State) {p : Part} (h : p ≠ .host) (h' : p ≠ .freeCount) : s.samePart s.takeOp p := by
  cases p <;> first | exact absurd rfl h | exact absurd rfl h' | rfl | exact fun _ => rfl

/-- Beginning a CYCLE touches only the schedule, the inputs and the counter of free values. -/
theorem State.samePart_beginCycle (s : State) (input : CycleInput) {p : Part} (h : p ≠ .host) (h' : p ≠ .input) (h'' : p ≠ .freeCount) :
    s.samePart (s.beginCycle input) p := by
  cases p <;> first | exact absurd rfl h | exact absurd rfl h' | exact absurd rfl h'' | rfl | exact fun _ => rfl

/-- The operation that runs a word placed for the host is a CYCLE (log 17). -/
theorem State.nextOp_withFetchWord (s : State) (nbits w : Nat) : ∃ input, (s.withFetchWord nbits w).nextOp = .cycle input := by
  cases h : s.host with
  | nil => exact ⟨Config.freeInput s.freeCount, by simp [State.withFetchWord, placeWord, State.withCycleFirst, State.nextOp, h]⟩
  | cons o rest =>
    cases o with
    | cycle input => exact ⟨input, by simp [State.withFetchWord, placeWord, State.withCycleFirst, State.nextOp, h]⟩
    | _ => exact ⟨Config.freeInput s.freeCount, by simp [State.withFetchWord, placeWord, State.withCycleFirst, State.nextOp, h]⟩

@[simp] theorem State.fetchWord_beginCycle (s : State) (input : CycleInput) : (s.beginCycle input).fetchWord = s.fetchWord := rfl

end Sys2Proof.Machine
end

