-- ==== Sys2Proof/Tests/Slice0.lean ====
section
/-! SUPPORT. Tests of one step each, with the expected values of spec/95_test_vectors.md (its vector's name stands in the comment), and the
witnesses: for every obligation with hypotheses, a concrete state and operands that meet them together. -/

namespace Sys2Proof.Tests

open Sys2Proof.Machine Sys2Proof.Claims

-- One theorem at a time: every evaluation by the kernel waits for the one before it, and each waiting theorem would hold a thread.
set_option Elab.async false

/-! ### Well-formedness: the check that there is, refused and accepted -/

theorem test_wellFormed_refuses_sys_0E0 : (Instr.sys 0x0E0).wellFormed = false := by decide
theorem test_wellFormed_refuses_sys_0EE : (Instr.sys 0x0EE).wellFormed = false := by decide
theorem test_wellFormed_accepts_other_sys :
    (Instr.sys 0x0E1).wellFormed = true ∧ (Instr.sys 0x000).wellFormed = true ∧ (Instr.sys 0xFFF).wellFormed = true := by decide

/-! ### Decoding: words written out from the patterns of 30_encoding R74 and 95_test_vectors Part 4 -/

theorem test_decode_group_0 :
    decodeTableWord 16 0x00E0 = some .cls ∧ decodeTableWord 16 0x00EE = some .ret ∧
    decodeTableWord 16 0x0E00 = some (.sys 0xE00) ∧ decodeTableWord 16 0x00E1 = some (.sys 0x0E1) := by decide

theorem test_decode_nnn :
    decodeTableWord 16 0x1ABC = some (.jp 0xABC) ∧ decodeTableWord 16 0x2ABC = some (.call 0xABC) ∧
    decodeTableWord 16 0xA123 = some (.ldI 0x123) ∧ decodeTableWord 16 0xB3FE = some (.jpV0 0x3FE) := by decide

theorem test_decode_xnn :
    decodeTableWord 16 0x332A = some (.seImm 0x3 0x2A) ∧ decodeTableWord 16 0x432A = some (.sneImm 0x3 0x2A) ∧
    decodeTableWord 16 0x6A0C = some (.ldImm 0xA 0x0C) ∧ decodeTableWord 16 0x7FFF = some (.addImm 0xF 0xFF) ∧
    decodeTableWord 16 0xC30F = some (.rnd 0x3 0x0F) := by decide

theorem test_decode_xy :
    decodeTableWord 16 0x5AB0 = some (.seReg 0xA 0xB) ∧ decodeTableWord 16 0x9AB0 = some (.sneReg 0xA 0xB) ∧
    decodeTableWord 16 0x8AB0 = some (.ldReg 0xA 0xB) ∧ decodeTableWord 16 0x8AB1 = some (.orReg 0xA 0xB) ∧
    decodeTableWord 16 0x8AB2 = some (.andReg 0xA 0xB) ∧ decodeTableWord 16 0x8AB3 = some (.xorReg 0xA 0xB) ∧
    decodeTableWord 16 0x8AB4 = some (.addReg 0xA 0xB) ∧ decodeTableWord 16 0x8AB5 = some (.subReg 0xA 0xB) ∧
    decodeTableWord 16 0x8AB6 = some (.shrReg 0xA 0xB) ∧ decodeTableWord 16 0x8AB7 = some (.subnReg 0xA 0xB) ∧
    decodeTableWord 16 0x8ABE = some (.shlReg 0xA 0xB) ∧ decodeTableWord 16 0xD5A3 = some (.drw 0x5 0xA 0x3) := by decide

theorem test_decode_groups_E_and_F :
    decodeTableWord 16 0xE19E = some (.skp 0x1) ∧ decodeTableWord 16 0xE1A1 = some (.sknp 0x1) ∧
    decodeTableWord 16 0xFE07 = some (.ldVxDt 0xE) ∧ decodeTableWord 16 0xFE0A = some (.ldVxK 0xE) ∧
    decodeTableWord 16 0xFE15 = some (.ldDtVx 0xE) ∧ decodeTableWord 16 0xFE18 = some (.ldStVx 0xE) ∧
    decodeTableWord 16 0xFE1E = some (.addIVx 0xE) ∧ decodeTableWord 16 0xFE29 = some (.ldFVx 0xE) ∧
    decodeTableWord 16 0xFE33 = some (.ldBVx 0xE) ∧ decodeTableWord 16 0xFE55 = some (.ldMemVx 0xE) ∧
    decodeTableWord 16 0xFE65 = some (.ldVxMem 0xE) := by decide

theorem test_decode_unknown :
    decodeTableWord 16 0x5AB1 = none ∧ decodeTableWord 16 0x9AB1 = none ∧ decodeTableWord 16 0x8AB8 = none ∧
    decodeTableWord 16 0x8ABF = none ∧ decodeTableWord 16 0xE19D = none ∧ decodeTableWord 16 0xFE75 = none := by decide

/-- 95_test_vectors, end of Part 4: `12 34` in memory is the word 0x1234. -/
theorem test_decode_is_big_endian : decode [0x12, 0x34, 0x56] = .ok (.jp 0x234, [0x56]) := rfl
theorem test_decode_truncated : decode [0x12] = .error .truncated ∧ decode [] = .error .truncated := ⟨rfl, rfl⟩
theorem test_decode_unknown_names_the_word : decode [0x80, 0x08] = .error (.unknownOpcode 0x8008) := rfl
theorem test_encode_bytes : encode (.drw 0x5 0xA 0x3) = [0xD5, 0xA3] ∧ encode (.call 0xABC) = [0x2A, 0xBC] := by decide

/-! ### The machine the one-step tests run -/

/-- The next state of an outcome. -/
def nextOf : Result → Option State
  | .next t => some t
  | _ => none

/-- A state after RESET with some registers set. -/
def regs (l : List (RegIdx × Byte)) : State := l.foldl (fun s p => s.setReg p.1 p.2) State.reset

/-- The state with bytes placed in memory. -/
def poke (a : Nat) (bytes : List Byte) (s : State) : State := { s with mem := s.mem.writeBytes a bytes }

/-- The state with I set. -/
def atI (a : Word) (s : State) : State := s.setI a

/-- The state with pixels set, given as (row, column). -/
def lit (l : List (Nat × Nat)) (s : State) : State := { s with disp := l.foldl (fun g p => g.setPixel p.1 p.2 true) s.disp }

/-- The state with the quirks SHIFT_VY, MEM_INCR_I, IADD_VF, JUMP_VX. -/
def quirky (q : Quirks) (s : State) : State := { s with config := { s.config with quirks := q } }

/-- The state in which the next CYCLE runs the word `op` with the inputs `key` and `draw`. -/
def prepared (op : Nat) (key : Option Key) (draw : Byte) (s : State) : State :=
  ({ s with host := [.cycle { key := key, draw := draw }] }).withFetchWord 16 op

/-- What `f` reads after one CYCLE that runs `op`. -/
def after {α : Type} (op : Nat) (s : State) (f : State → α) (key : Option Key := none) (draw : Byte := 0) : Option α :=
  (nextOf (step (prepared op key draw s))).map f

/-- What `f` reads after one host operation. -/
def afterOp {α : Type} (o : HostOp) (s : State) (f : State → α) : Option α :=
  (nextOf (step { s with host := [o] })).map f

/-- A register beside VF and pc. -/
def rvp (x : RegIdx) (t : State) : Byte × Byte × Word := (t.reg x, t.reg vf, t.pc)

/-- All set pixels of the first 8 rows and 64 columns and of row 31. -/
def pixels (t : State) : List (Nat × Nat) :=
  ([0, 1, 2, 3, 4, 5, 6, 7, 31].flatMap (fun r => (List.range 64).map (fun c => (r, c)))).filter (fun p => t.disp.pixel p.1 p.2)

/-! ### Control flow -/

/-- CF1. -/
theorem test_jp : after 0x1228 State.reset (·.pc) = some 0x228 := by decide +kernel
/-- CF4. -/
theorem test_call : after 0x2300 State.reset (fun t => (t.pc, t.stack)) = some (0x300, [0x202]) := by decide +kernel
/-- CF5: the pushed pc is 4096. -/
theorem test_call_at_the_top : after 0x2FFE (State.reset.setPc 0xFFE) (fun t => (t.pc, t.stack)) = some (0xFFE, [0x1000]) := by
  decide +kernel
/-- CF6: last pushed, first popped. -/
theorem test_ret : after 0x00EE { State.reset with pc := 0x300, stack := [0x202, 0x456] } (fun t => (t.pc, t.stack))
    = some (0x456, [0x202]) := by decide +kernel
/-- CF7. -/
theorem test_ret_on_empty_stack : after 0x00EE State.reset (fun t => (t.pc, t.stack, t.events, t.fault))
    = some (0x202, [], [.emptyReturn 0x200], none) := by decide +kernel
/-- CF9: X is the top nibble of nnn. -/
theorem test_jpV0_quirk : after 0xB300 (quirky ⟨false, false, false, true⟩ (regs [(0, 0x04), (3, 0x10)])) (·.pc) = some 0x310 := by
  decide +kernel
/-- CF10. -/
theorem test_jpV0_is_not_masked : after 0xBFFF (regs [(0, 0xFF)]) (·.pc) = some 0x10FE := by decide +kernel

/-! ### Skips -/

/-- SK1, SK2. -/
theorem test_seImm : after 0x332A (regs [(3, 0x2A)]) (·.pc) = some 0x204 ∧ after 0x332A (regs [(3, 0x2B)]) (·.pc) = some 0x202 := by
  decide +kernel
/-- SK3, SK4. -/
theorem test_sneImm : after 0x432A (regs [(3, 0x2A)]) (·.pc) = some 0x202 ∧ after 0x432A (regs [(3, 0x2B)]) (·.pc) = some 0x204 := by
  decide +kernel
/-- SK5, SK6. -/
theorem test_seReg : after 0x5120 (regs [(1, 7), (2, 7)]) (·.pc) = some 0x204 ∧ after 0x5120 (regs [(1, 7), (2, 8)]) (·.pc) = some 0x202 := by
  decide +kernel
/-- SK8, SK9. -/
theorem test_sneReg : after 0x9120 (regs [(1, 7), (2, 7)]) (·.pc) = some 0x202 ∧ after 0x9120 (regs [(1, 7), (2, 8)]) (·.pc) = some 0x204 := by
  decide +kernel

/-! ### Immediates and the index load -/

/-- IM2. -/
theorem test_ldImm_into_VF : after 0x6F55 (regs [(15, 1)]) (·.reg 15) = some 0x55 := by decide +kernel
/-- S1c: no flag. -/
theorem test_addImm_wraps : after 0x7101 (regs [(1, 0xFF), (15, 7)]) (rvp 1) = some (0x00, 7, 0x202) := by decide +kernel
/-- IM7. -/
theorem test_ldI : after 0xAFFF (atI 0xFFFF State.reset) (·.i) = some 0x0FFF := by decide +kernel

/-! ### Arithmetic and logic -/

/-- AL1. -/
theorem test_ldReg : after 0x8120 (regs [(1, 0x01), (2, 0x99), (15, 7)]) (rvp 1) = some (0x99, 7, 0x202) := by decide +kernel
/-- AL2. -/
theorem test_orReg : after 0x8121 (regs [(1, 0x0F), (2, 0xF0), (15, 7)]) (rvp 1) = some (0xFF, 7, 0x202) := by decide +kernel
/-- AL3. -/
theorem test_andReg : after 0x8122 (regs [(1, 0x3C), (2, 0x0F), (15, 7)]) (rvp 1) = some (0x0C, 7, 0x202) := by decide +kernel
/-- AL4. -/
theorem test_xorReg : after 0x8123 (regs [(1, 0xFF), (2, 0x0F), (15, 7)]) (rvp 1) = some (0xF0, 7, 0x202) := by decide +kernel
/-- AL6. -/
theorem test_addReg : after 0x8124 (regs [(1, 0xC8), (2, 0x64)]) (rvp 1) = some (0x2C, 1, 0x202) := by decide +kernel
/-- AL10: the flag overwrites the sum. -/
theorem test_addReg_into_VF : after 0x8F14 (regs [(15, 1), (1, 2)]) (·.reg 15) = some 0 := by decide +kernel
/-- AL12. -/
theorem test_subReg_borrows : after 0x8125 (regs [(1, 0x10), (2, 0x20)]) (rvp 1) = some (0xF0, 0, 0x202) := by decide +kernel
/-- AL13: equal operands do not borrow. -/
theorem test_subReg_equal : after 0x8125 (regs [(1, 7), (2, 7)]) (rvp 1) = some (0, 1, 0x202) := by decide +kernel
/-- AL17. -/
theorem test_subnReg : after 0x8127 (regs [(1, 0x10), (2, 0x20)]) (rvp 1) = some (0x10, 1, 0x202) := by decide +kernel
/-- AL20. -/
theorem test_shrReg : after 0x8126 (regs [(1, 0x05), (2, 0x0A)]) (rvp 1) = some (0x02, 1, 0x202) := by decide +kernel
/-- AL24: VY is VF. -/
theorem test_shrReg_quirk : after 0x81F6 (quirky ⟨true, false, false, false⟩ (regs [(1, 4), (15, 3)])) (rvp 1) = some (1, 1, 0x202) := by
  decide +kernel
/-- AL25. -/
theorem test_shlReg : after 0x812E (regs [(1, 0x81), (2, 0x01)]) (rvp 1) = some (0x02, 1, 0x202) := by decide +kernel
/-- AL26. -/
theorem test_shlReg_quirk : after 0x812E (quirky ⟨true, false, false, false⟩ (regs [(1, 0x81), (2, 0x01)])) (rvp 1) = some (0x02, 0, 0x202) := by
  decide +kernel

/-! ### Display -/

/-- S3a. -/
theorem test_cls : after 0x00E0 (lit [(0, 0), (31, 63), (7, 9)] State.reset) (fun t => (pixels t, t.dirty, t.pc)) = some ([], true, 0x202) := by
  decide +kernel
/-- DS2: clipped at both edges, nothing wraps. -/
theorem test_drw_clips : after 0xD012 (poke 0x300 [0xF0, 0x90] (atI 0x300 (regs [(0, 0x3E), (1, 0x1F)])))
    (fun t => (pixels t, t.reg vf, t.dirty)) = some ([(31, 62), (31, 63)], 0, true) := by decide +kernel
/-- DS4: one pixel is cleared, one set. -/
theorem test_drw_collides : after 0xD011 (lit [(0, 1)] (poke 0x300 [0xC0] (atI 0x300 State.reset)))
    (fun t => (pixels t, t.reg vf)) = some ([(0, 0)], 1) := by decide +kernel

/-! ### Memory through the index register -/

/-- MI2. -/
theorem test_ldMemVx : after 0xF255 (quirky ⟨false, true, false, false⟩ (atI 0x300 (regs [(0, 1), (1, 2), (2, 3), (3, 4)])))
    (fun t => (t.mem.readBytes 0x300 4, t.i)) = some ([1, 2, 3, 0], 0x303) := by decide +kernel
/-- MI6: nothing is written. -/
theorem test_ldMemVx_faults : after 0xF155 (atI 0xFFF (regs [(0, 0xAB), (1, 0xCD)]))
    (fun t => (t.mem.read 0xFFF, t.i, t.pc, t.fault)) = some (0, 0xFFF, 0x200, some (.memRange 0x200 0x1000)) := by decide +kernel
/-- MI3. -/
theorem test_ldVxMem : after 0xF265 (poke 0x300 [9, 8, 7, 6] (atI 0x300 (regs [(3, 0xEE)])))
    (fun t => (t.reg 0, t.reg 1, t.reg 2, t.reg 3, t.i)) = some (9, 8, 7, 0xEE, 0x300) := by decide +kernel
/-- MI7. -/
theorem test_ldVxMem_faults : after 0xF165 (atI 0x1000 (regs [(0, 0x11), (1, 0x22)]))
    (fun t => (t.reg 0, t.reg 1, t.pc, t.fault)) = some (0x11, 0x22, 0x200, some (.memRange 0x200 0x1000)) := by decide +kernel
/-- MI14. -/
theorem test_addIVx_wraps : after 0xF21E (atI 0xFFFF (regs [(2, 1), (15, 7)])) (fun t => (t.i, t.reg vf)) = some (0, 7) := by decide +kernel
/-- MI15: VF is read before it is set. -/
theorem test_addIVx_quirk : after 0xFF1E (quirky ⟨false, false, true, false⟩ (atI 0x010 (regs [(15, 5)]))) (fun t => (t.i, t.reg vf))
    = some (0x015, 1) := by decide +kernel
/-- S5a. -/
theorem test_ldBVx : after 0xF433 (atI 0x300 (regs [(4, 156)])) (fun t => (t.mem.readBytes 0x300 3, t.i)) = some ([1, 5, 6], 0x300) := by
  decide +kernel
/-- MI18. -/
theorem test_ldBVx_faults : after 0xF433 (atI 0xFFE (regs [(4, 0xD1)])) (fun t => (t.mem.readBytes 0xFFE 2, t.pc, t.fault))
    = some ([0, 0], 0x200, some (.memRange 0x200 0x1000)) := by decide +kernel

/-! ### Keys and timers -/

/-- KT1, KT5. -/
theorem test_skp : after 0xE39E (regs [(3, 7)]) (·.pc) (key := some 7) = some 0x204 ∧
    after 0xE39E (regs [(3, 0x17)]) (·.pc) (key := some 7) = some 0x202 := by decide +kernel
/-- KT4: no key is not key 0. -/
theorem test_skp_no_key : after 0xE39E State.reset (·.pc) = some 0x202 := by decide +kernel
/-- KT6, KT8. -/
theorem test_sknp : after 0xE3A1 (regs [(3, 7)]) (·.pc) (key := some 7) = some 0x202 ∧
    after 0xE3A1 (regs [(3, 7)]) (·.pc) = some 0x204 := by decide +kernel
/-- S7a. -/
theorem test_ldVxK_waits : after 0xF30A ((regs [(3, 9)]).setPc 0x210) (fun t => (t.reg 3, t.pc)) = some (9, 0x210) := by decide +kernel
/-- S7b. -/
theorem test_ldVxK_takes_the_key : after 0xF30A (State.reset.setPc 0x210) (fun t => (t.reg 3, t.pc)) (key := some 7) = some (7, 0x212) := by
  decide +kernel
/-- KT9. -/
theorem test_ldVxDt : after 0xF507 (State.reset.setDt 0x2C) (fun t => (t.reg 5, t.dt)) = some (0x2C, 0x2C) := by decide +kernel
/-- KT10. -/
theorem test_ldDtVx : after 0xF515 (regs [(5, 0x60)]) (fun t => (t.dt, t.st)) = some (0x60, 0) := by decide +kernel
/-- KT12: no BEEP_STOP on a write. -/
theorem test_ldStVx : after 0xF518 (State.reset.setSt 9) (fun t => (t.st, t.dt, t.events)) = some (0, 0, []) := by decide +kernel

/-! ### RND, LD F, SYS and unknown words -/

/-- RF1. -/
theorem test_rnd : after 0xC30F State.reset (·.reg 3) (draw := 0xA7) = some 0x07 := by decide +kernel
/-- RF4, RF7. -/
theorem test_ldFVx : after 0xF229 (regs [(2, 0x0A)]) (·.i) = some 0x082 ∧ after 0xF229 (regs [(2, 0x1A)]) (·.i) = some 0x082 := by
  decide +kernel
/-- RF9. -/
theorem test_sys : after 0x0123 State.reset (fun t => (t.pc, t.events)) = some (0x202, [.unknownOpcode 0x0123 0x200]) := by decide +kernel
/-- AL29. -/
theorem test_unknown_word : after 0x8128 State.reset (fun t => (t.pc, t.events)) = some (0x202, [.unknownOpcode 0x8128 0x200]) := by
  decide +kernel

/-! ### Fetch, fault and the host's operations -/

/-- FF3. -/
theorem test_fetch_faults : afterOp (.cycle ⟨none, 0⟩) (State.reset.setPc 0xFFF) (fun t => (t.pc, t.fault))
    = some (0xFFF, some (.memRange 0xFFF 0x1000)) := by decide +kernel
/-- KT14. -/
theorem test_tick : afterOp .tick ((State.reset.setDt 2).setSt 1) (fun t => (t.dt, t.st, t.events)) = some (1, 0, [.beepStop]) := by
  decide +kernel
/-- KT17. -/
theorem test_tick_after_fault :
    afterOp .tick { (State.reset.setDt 5).setSt 1 with fault := some (.memRange 0x200 0x1000) } (fun t => (t.dt, t.st, t.events)) = some (5, 1, []) := by
  decide +kernel
/-- FF5. -/
theorem test_clearDirty : afterOp .clearDirty { State.reset with dirty := true, fault := some (.memRange 0x200 0x1000) }
    (fun t => (t.dirty, t.fault)) = some (false, some (.memRange 0x200 0x1000)) := by decide +kernel
/-- 70_reset R201, R202: the font and the program image. -/
theorem test_reset_places_font_and_image : afterOp (.reset [0x12, 0x34] { Config.default with fontBase := 0 }) State.reset
    (fun t => (t.mem.readBytes 0x200 3, t.mem.readBytes 0x04B 6, t.mem.read 0x9B, t.fault)) =
      some ([0x12, 0x34, 0], [0xF0, 0x80, 0xF0, 0x80, 0x80, 0], 0, none) := by decide +kernel
/-- FF8. -/
theorem test_reset_too_long : nextOf (step { State.reset with host := [.reset (List.replicate 3585 0) Config.default] }) = none := by
  decide +kernel
theorem test_reset_memory_canonical : State.reset.mem.wf ∧ State.reset.mem.read 0x050 = 0xF0 ∧ State.reset.mem.read 0x200 = 0 := by
  decide
/-- FF9: with the empty image, the first CYCLE runs the word 0000. -/
theorem test_first_cycle_from_reset : afterOp (.cycle ⟨none, 0⟩) core.reset (fun t => (t.pc, t.events)) = some (0x202, [.unknownOpcode 0 0x200]) := by
  decide +kernel
/-- A program runs from reset by a RESET with its image and then a CYCLE: here JP 0x234. -/
theorem test_reset_then_cycle :
    ((nextOf (step { State.reset with host := [.reset [0x12, 0x34] Config.default, .cycle ⟨none, 0⟩] })).bind (fun t => nextOf (step t))).map
      (fun t => (t.pc, t.host)) = some (0x234, []) := by decide +kernel
/-- Log 24: a one-byte image 6A makes the first word 6A00. -/
theorem test_one_byte_image : afterOp (.reset [0x6A] Config.default) State.reset (·.fetchWord) = some 0x6A00 := by decide +kernel
/-- withFetchWord at reset runs the word whatever the free inputs are. -/
theorem test_withFetchWord_runs_first : (nextOf (step (State.reset.withFetchWord 16 0x6A0C))).map (fun t => (t.reg 0xA, t.pc)) = some (0x0C, 0x202) := by
  decide +kernel

/-! ### Witnesses: the hypotheses of each obligation, met together by a concrete state. A clause of its own has its own witness, at a
boundary of its range. -/

/-- An outcome that is a next state with a property, from a check that computes. -/
theorem answers {r : Result} {p : State → Bool} (h : (nextOf r).any p = true) : ∃ t, r = .next t ∧ p t = true := by
  cases r with
  | next t => exact ⟨t, rfl, h⟩
  | fault r => cases h
  | refused r => cases h

/-- The check behind `runsNext`. -/
def runsNextCheck (s : State) (i : Instr) : Bool :=
  cycleNext s && s.fault.isNone && decide (s.pc.toNat + 1 < memSize)
    && decodeWord (wordOfBytes (s.mem.read s.pc.toNat) (s.mem.read (s.pc.toNat + 1))) == some i

theorem runsNext_of_check {s : State} {i : Instr} (h : runsNextCheck s i = true) : runsNext s i := by
  simp only [runsNextCheck, Bool.and_eq_true, Option.isNone_iff_eq_none, decide_eq_true_eq, beq_iff_eq] at h
  exact ⟨h.1.1.1, h.1.1.2, h.1.2, by simp only [decode, h.2]⟩

/-- A machine with something in every part: registers, I = 0x300, two return addresses, a pixel, timers, a sprite. -/
def busy : State :=
  { lit [(1, 2)] (poke 0x300 [0xC0, 0x81] (regs [(0, 0xA0), (1, 1), (2, 2), (3, 3), (4, 4), (15, 0xF0)])) with
    i := 0x300, stack := [0x222, 0x444], dt := 9, st := 1, input := { key := some 7, draw := 0x5A } }

/-- `busy` with the word `op` next, scheduled with the inputs key 7 and byte 0x5A. -/
def busyAt (op : Nat) : State := prepared op (some 7) 0x5A busy

/-- `busy` with a latched fault at its pc and the dirty flag up. -/
def broken : State := { busy with fault := some (.memRange 0x200 0x1000), dirty := true }

/-- `s` with one host operation next. -/
def withOp (o : HostOp) (s : State) : State := { s with host := [o] }

/-- `busy` with a stack of capacity `c`. -/
def capped (c : Nat) : State := { busy with config := { busy.config with stackCapacity := some c } }

/-! #### Encoding -/

theorem test_witness_DecodeOfEncodeIsTheInstruction :
    (Instr.drw 5 10 3).wellFormed = true ∧ (Instr.sys 0xFFF).wellFormed = true ∧ (Instr.sys 0x0EF).wellFormed = true := by decide
theorem test_witness_EncodeOfDecodeIsTheWord : decodeWord 0xD5A3 = some (.drw 5 10 3) ∧ decodeWord 0x0000 = some (.sys 0) := by decide
theorem test_witness_DecodeSelectsTheMatchingRow :
    decodeWord 0x00EE = some .ret ∧ isSys .ret = false ∧ 0x00EE &&& (opcodeRow .ret).1 = (opcodeRow .ret).2 ∧
    0xFFFF &&& (opcodeRow (.ldVxMem 0)).1 ≠ (opcodeRow (.ldVxMem 0)).2 := by decide

/-! #### The CYCLE operation -/

theorem test_witness_StepRunsTheDecodedInstruction :
    runsNext (busyAt 0x8124) (.addReg 1 2) ∧ (busyAt 0x8124).nextOp = .cycle { key := some 7, draw := 0x5A } :=
  ⟨runsNext_of_check (by decide +kernel), rfl⟩
theorem test_witness_AnExhaustedScheduleGoesOnFreely : State.reset.host = [] ∧ busy.host = [] := by decide +kernel
theorem test_witness_UnknownWordIsLoggedAndSkipped :
    cycleNext (busyAt 0xFE75) = true ∧ (busyAt 0xFE75).running ∧ (busyAt 0xFE75).pc.toNat + 1 < memSize ∧
    decode [(busyAt 0xFE75).mem.read 0x200, (busyAt 0xFE75).mem.read 0x201] = .error (.unknownOpcode 0xFE75) :=
  ⟨by decide +kernel, rfl, by decide +kernel, rfl⟩
theorem test_witness_FetchBeyondMemoryFaults :
    cycleNext ((busyAt 0).setPc 0xFFF) = true ∧ ((busyAt 0).setPc 0xFFF).running ∧ memSize ≤ ((busyAt 0).setPc 0xFFF).pc.toNat + 1 :=
  ⟨by decide +kernel, rfl, by decide +kernel⟩
theorem test_witness_FaultedMachineIsFrozen :
    (withOp .tick broken).fault ≠ none ∧ resetNext (withOp .tick broken) = false ∧ clearDirtyNext (withOp .clearDirty broken) = true ∧
    resetNext (withOp .clearDirty broken) = false := by decide +kernel
theorem test_witness_EveryInstructionWritesOnlyWhatItsRuleNames :
    busy.mem.wf ∧ ∃ t, exec (.ldMemVx 3) busy = .next t ∧ decide (t.mem.read 0x300 = 0xA0) = true :=
  ⟨by decide +kernel, answers (by decide +kernel)⟩
theorem test_witness_InputsReachOnlyTheirInstructions : readsKey (.rnd 0 0) = false ∧ readsDraw (.skp 0) = false := by decide

/-! #### Whole-machine rules -/

/-- The invariant from a check of its parts, for a state whose memory, display and bounds compute. -/
theorem inv_of_check {s : State} (h : s.mem.wf ∧ s.disp.shaped s.config.width s.config.height ∧ s.config.legal ∧ s.pc.toNat ≤ 0x10FE ∧
    s.stack.all (fun a => decide (a.toNat ≤ 0x1000)) = true) (hc : s.config.stackCapacity = none) (hf : s.latchPrecise) : s.Inv where
  memory := h.1
  display := h.2.1
  parameters := h.2.2.1
  pcBound := h.2.2.2.1
  returns := fun a ha => of_decide_eq_true (List.all_eq_true.1 h.2.2.2.2 a ha)
  capacity := fun c h' => by rw [hc] at h'; cases h'
  latch := hf

theorem latchPrecise_of_none {s : State} (h : s.fault = none) : s.latchPrecise := fun f hf => by rw [h] at hf; cases hf

theorem latchPrecise_of_memRange {s : State} {addr : Nat} (h : s.fault = some (.memRange s.pc addr)) (ha : memSize ≤ addr) :
    s.latchPrecise := fun f hf => by
  rw [h] at hf
  cases hf
  exact ⟨rfl, fun pc0 a h' => by cases h'; exact ha⟩

theorem test_witness_EveryStepKeepsTheInvariant :
    (busyAt 0xF355).Inv ∧ ∃ t, step (busyAt 0xF355) = .next t ∧ decide (t.mem ≠ (busyAt 0xF355).mem) = true :=
  ⟨inv_of_check (by decide +kernel) (by decide +kernel) (latchPrecise_of_none (by decide +kernel)), answers (by decide +kernel)⟩
/-- A faulted machine can meet the invariant too. -/
theorem test_witness_EveryStepKeepsTheInvariant_faulted :
    (withOp .tick broken).Inv ∧ ∃ t, step (withOp .tick broken) = .next t ∧ t.fault.isSome = true :=
  ⟨inv_of_check (by decide +kernel) (by decide +kernel) (latchPrecise_of_memRange (addr := 0x1000) (by decide +kernel) (by decide)),
    answers (p := fun t => t.fault.isSome) (by decide +kernel)⟩
/-- A RESET from a state that does not meet the invariant: its display has no rows. -/
theorem test_witness_ResetStateMeetsTheInvariant :
    (withOp (.reset [0x12] Config.default) { broken with disp := [] }).nextOp = .reset [0x12] Config.default ∧ Config.default.legal ∧
    ([0x12] : List Byte).length ≤ memSize - programStart ∧
    ¬(withOp (.reset [0x12] Config.default) { broken with disp := [] }).disp.shaped 64 32 := by decide +kernel
theorem test_witness_OnlyResetChangesTheParameters :
    (∃ t, step (busyAt 0x00E0) = .next t ∧ t.dirty = true) ∧ resetNext (busyAt 0x00E0) = false :=
  ⟨answers (p := fun t => t.dirty) (by decide +kernel), by decide +kernel⟩
theorem test_witness_OnlyClsDrwAndResetChangeTheDisplay :
    ∃ t, step (busyAt 0xD121) = .next t ∧ decide (t.disp ≠ (busyAt 0xD121).disp) = true := answers (by decide +kernel)
theorem test_witness_OnlyCallPushesAndOnlyRetPops :
    (∃ t, step (busyAt 0x2ABC) = .next t ∧ decide (t.stack = [0x222, 0x444, 0x202]) = true) ∧
    (∃ t, step (busyAt 0x00EE) = .next t ∧ decide (t.stack = [0x222] ∧ t.pc = 0x444) = true) ∧
    (resetNext (busyAt 0x00EE) = false ∧ resetNext (withOp (.reset [] Config.default) busy) = true) ∧
    ∃ t, step (withOp (.reset [] Config.default) busy) = .next t ∧ decide (t.stack = [] ∧ busy.stack ≠ []) = true :=
  ⟨answers (by decide +kernel), answers (by decide +kernel), by decide +kernel, answers (by decide +kernel)⟩
theorem test_witness_DirtyFlagIsRaisedByDrawingAndLoweredByTheHost :
    (∃ t, step (busyAt 0x00E0) = .next t ∧ (!(busyAt 0x00E0).dirty && t.dirty) = true) ∧
    ∃ t, step (withOp .clearDirty broken) = .next t ∧ (broken.dirty && !t.dirty) = true :=
  ⟨answers (by decide +kernel), answers (by decide +kernel)⟩
theorem test_witness_OnlyStoresAndResetChangeMemory :
    ∃ t, step (busyAt 0xF133) = .next t ∧ decide (t.mem ≠ (busyAt 0xF133).mem) = true := answers (by decide +kernel)
theorem test_witness_BeepStopComesFromTheDecrementToZero :
    (∃ t, step (withOp .tick busy) = .next t ∧ decide (t.events = [.beepStop]) = true) ∧ tickNext (withOp .tick busy) = true ∧
    busy.fault = none ∧ busy.st = 1 := ⟨answers (by decide +kernel), by decide +kernel⟩

/-! #### The other host operations -/

theorem test_witness_TickCountsTheTimersDown : (withOp .tick busy).nextOp = .tick ∧ (withOp .tick busy).running := ⟨rfl, rfl⟩
theorem test_witness_ClearDirtyLowersTheDirtyFlagOnly : (withOp .clearDirty broken).nextOp = .clearDirty := rfl
/-- The longest image (FF7) and the tightest parameters. -/
theorem test_witness_ResetConstructsTheMachine :
    (withOp (.reset [0x12, 0x34] { Config.default with fontBase := 432, width := 1, height := 1 }) broken).nextOp
      = .reset [0x12, 0x34] { Config.default with fontBase := 432, width := 1, height := 1 } ∧
    ({ Config.default with fontBase := 432, width := 1, height := 1 } : Config).legal ∧
    ([0x12, 0x34] : List Byte).length ≤ memSize - programStart ∧ (List.replicate 3584 (0 : Byte)).length ≤ memSize - programStart :=
  ⟨rfl, by decide, by decide, by rw [List.length_replicate]; decide⟩
theorem test_witness_ResetRejectsATooLongImage :
    (withOp (.reset (List.replicate 3585 0) Config.default) broken).nextOp = .reset (List.replicate 3585 0) Config.default ∧
    Config.default.legal ∧ memSize - programStart < (List.replicate 3585 (0 : Byte)).length := ⟨rfl, by decide, by rw [List.length_replicate]; decide⟩
theorem test_witness_ResetRefusesIllegalParameters :
    (withOp (.reset [] { Config.default with fontBase := 433 }) busy).nextOp = .reset [] { Config.default with fontBase := 433 } ∧
    ¬({ Config.default with fontBase := 433 } : Config).legal ∧ ¬({ Config.default with width := 0 } : Config).legal ∧
    ¬({ Config.default with height := 0 } : Config).legal := ⟨rfl, by decide⟩

/-! #### Control flow -/

theorem test_witness_CallPushesThePcAndJumps : stackHasRoom busy ∧ stackHasRoom (capped 3) :=
  ⟨fun c h => (by cases h), fun c h => by cases h; decide +kernel⟩
theorem test_witness_CallOnAFullStackFaults : ¬stackHasRoom (capped 2) ∧ ¬stackHasRoom (capped 0) :=
  ⟨fun h => absurd (h 2 rfl) (by decide +kernel), fun h => absurd (h 0 rfl) (by decide +kernel)⟩
theorem test_witness_ReturnPopsOrLogs : busy.stack = [0x222] ++ [0x444] ∧ State.reset.stack = [] := ⟨rfl, rfl⟩
theorem test_witness_ReturnComesBackBehindTheCall :
    stackHasRoom busy ∧ ∃ t, exec (.call 0xABC) busy = .next t ∧ decide ((t.setPc 0xABE).stack = t.stack) = true :=
  ⟨fun c h => (by cases h), answers (by decide +kernel)⟩
theorem test_witness_OffsetJumpAddsTheSelectedRegister :
    busy.config.quirks.jumpVx = false ∧ (quirky ⟨false, false, false, true⟩ busy).config.quirks.jumpVx = true ∧
    (15 : RegIdx).val = (0xFFF#12).toNat / 256 ∧ (3 : RegIdx).val = (0x300#12).toNat / 256 := by decide +kernel

/-! #### Arithmetic -/

theorem test_witness_AddWritesTheSumThenTheCarry : (1 : RegIdx) ≠ vf := by decide
theorem test_witness_SubtractionsWriteTheDifferenceThenNoBorrow : (14 : RegIdx) ≠ vf := by decide
theorem test_witness_ShiftsMoveOneBitThenWriteTheBitOut :
    0x01#8 = (if busy.config.quirks.shiftVy = true then busy.reg 2 else busy.reg 1) ∧
    0x02#8 = (if (quirky ⟨true, false, false, false⟩ busy).config.quirks.shiftVy = true then busy.reg 2 else busy.reg 1) := by
  decide +kernel

/-! #### Display -/

/-- The cell (1, 1) is under a set bit and clear, the cell (1, 2) under a set bit and set, the cell (0, 0) under none. -/
theorem test_witness_DrawXorsTheSpriteInsideTheClip :
    busy.disp.shaped busy.config.width busy.config.height ∧ ((1#4) = 0 ∨ busy.i.toNat + (1#4).toNat ≤ memSize) ∧
    (onDisplay busy 1 2 ∧ spriteCovers busy 1 1 1 1 2 ∧ busy.disp.pixel 1 2 = true) ∧
    (onDisplay busy 1 1 ∧ spriteCovers busy 1 1 1 1 1 ∧ busy.disp.pixel 1 1 = false) ∧
    (onDisplay busy 31 63 ∧ ¬spriteCovers busy 1 1 1 31 63) := by
  unfold onDisplay spriteCovers spriteRow spriteCol
  decide +kernel
/-- No cell is lit, so the draw cannot collide; the range ends exactly at 4095. -/
theorem test_witness_DrawXorsTheSpriteInsideTheClip_clear :
    State.reset.disp.shaped 64 32 ∧ (atI 0xFFA State.reset).i.toNat + (6#4).toNat ≤ memSize ∧
    ¬∃ r c, onDisplay State.reset r c ∧ spriteCovers State.reset 0 0 6 r c ∧ State.reset.disp.pixel r c = true := by
  refine ⟨by decide, by decide, ?_⟩
  rintro ⟨r, c, -, -, h⟩
  exact absurd ((Grid.pixel_blank 64 32 r c).symm.trans h) (by decide)
theorem test_witness_DrawingTwiceRestoresTheDisplay :
    busy.disp.shaped busy.config.width busy.config.height ∧ busy.i.toNat + (2#4).toNat ≤ memSize ∧
    ∃ t, exec (.drw 1 1 2) busy = .next t ∧ decide (t.reg 1 = busy.reg 1 ∧ t.disp ≠ busy.disp) = true :=
  ⟨by decide +kernel, by decide +kernel, answers (by decide +kernel)⟩

/-! #### Memory through the index register -/

theorem test_witness_MemoryAccessBeyond4095Faults :
    (accessLength (.ldBVx 3) ≠ 0 ∧ memSize < (busy.setI 0xFFE).i.toNat + accessLength (.ldBVx 3)) ∧
    (accessLength (.drw 0 0 15) ≠ 0 ∧ memSize < (busy.setI 0xFFA).i.toNat + accessLength (.drw 0 0 15)) ∧
    (accessLength (.ldMemVx 0) ≠ 0 ∧ memSize < (busy.setI 0x1000).i.toNat + accessLength (.ldMemVx 0)) ∧
    (accessLength (.ldVxMem 15) ≠ 0 ∧ memSize < (busy.setI 0xFFFF).i.toNat + accessLength (.ldVxMem 15)) := by decide +kernel
/-- The range ends exactly at 4095. -/
theorem test_witness_RegisterDumpStoresV0ToVX : (busy.setI 0xFF0).mem.wf ∧ (busy.setI 0xFF0).i.toNat + ((15 : RegIdx).val + 1) ≤ memSize := by
  decide +kernel
theorem test_witness_RegisterLoadReadsV0ToVX : (busy.setI 0xFFF).i.toNat + ((0 : RegIdx).val + 1) ≤ memSize := by decide +kernel
theorem test_witness_DumpThenLoadRoundTrips :
    busy.mem.wf ∧ busy.i.toNat + ((3 : RegIdx).val + 1) ≤ memSize ∧
    ∃ t, exec (.ldMemVx 3) busy = .next t ∧ decide ((t.setReg 1 0).mem = t.mem ∧ (t.setReg 1 0).i = busy.i) = true :=
  ⟨by decide +kernel, by decide +kernel, answers (by decide +kernel)⟩
theorem test_witness_BcdStoresTheDecimalDigits : (busy.setI 0xFFD).mem.wf ∧ (busy.setI 0xFFD).i.toNat + 3 ≤ memSize := by decide +kernel
/-- MI19: the instruction at 0x200 stores its digits over itself and the first byte of its successor; the successor's second byte is not
stored, so both clauses of a byte are met. -/
theorem test_witness_StoredBytesAreFetchedNext :
    let s := (busy.setPc 0x202).setI 0x200
    storeLength (.ldBVx 3) ≠ 0 ∧ s.mem.wf ∧ s.i.toNat + storeLength (.ldBVx 3) ≤ memSize ∧
    ∃ t, exec (.ldBVx 3) s = .next t ∧ decide (s.i.toNat ≤ s.pc.toNat ∧ s.pc.toNat < s.i.toNat + storeLength (.ldBVx 3) ∧
      ¬s.pc.toNat + 1 < s.i.toNat + storeLength (.ldBVx 3) ∧ t.fetchWord = 0x0300) = true :=
  ⟨by decide, by decide +kernel, by decide +kernel, answers (by decide +kernel)⟩
/-- A dump onto the instruction's own successor. -/
theorem test_witness_StoredBytesAreFetchedNext_dump :
    (busy.setPc 0x302).mem.wf ∧ (busy.setPc 0x302).i.toNat + storeLength (.ldMemVx 3) ≤ memSize ∧
    ∃ t, exec (.ldMemVx 3) (busy.setPc 0x302) = .next t ∧ decide (t.fetchWord = 0x0203) = true :=
  ⟨by decide +kernel, by decide +kernel, answers (by decide +kernel)⟩

/-! #### Keys, font -/

theorem test_witness_KeyWaitStoresTheKeyOrRewinds : busy.input.key = some 7 ∧ State.reset.input.key = none := ⟨rfl, rfl⟩
theorem test_witness_KeyWaitCycleChangesNothing :
    runsNext (prepared 0xF30A none 0 busy) (.ldVxK 3) ∧ (prepared 0xF30A none 0 busy).nextOp = .cycle { key := none, draw := 0 } :=
  ⟨runsNext_of_check (by decide +kernel), rfl⟩
theorem test_witness_KeySkipsAreComplements :
    (∃ k : Key, (State.setReg busy 3 7).input.key = some k ∧ k.val = ((State.setReg busy 3 7).reg 3).toNat) ∧
    (¬∃ k : Key, busy.input.key = some k ∧ k.val = (busy.reg 3).toNat) ∧
    (¬∃ k : Key, State.reset.input.key = some k ∧ k.val = (State.reset.reg 3).toNat) := by decide +kernel
theorem test_witness_FontPointerSelectsTheGlyph : busy.config.legal ∧ ({ Config.default with fontBase := 0 } : Config).legal := by
  decide +kernel

end Sys2Proof.Tests
end

section
/-! The parts of the state the invariant speaks about, and what an instruction, a CYCLE and a TICK can do to them. -/

namespace Sys2Proof.Machine

/-! ### The guarded parts -/

/-- The parts of the state the invariant of Safety.lean speaks about. -/
structure Guarded where
  mem : Memory
  disp : Grid
  config : Config
  pc : Word
  stack : List Word
  fault : Option LatchedFault

/-- The guarded parts of a state. -/
def State.guarded (s : State) : Guarded :=
  { mem := s.mem, disp := s.disp, config := s.config, pc := s.pc, stack := s.stack, fault := s.fault }

theorem State.config_of_guarded {s t : State} (h : t.guarded = s.guarded) : t.config = s.config :=
  congrArg Guarded.config h

theorem State.guarded_loadRegs (s : State) (base : Nat) : ∀ n, (s.loadRegs base n).guarded = s.guarded
  | 0 => rfl
  | n + 1 => s.guarded_loadRegs base n

theorem State.guarded_bumpI (s : State) (n : Nat) : (s.bumpI n).guarded = s.guarded := by
  unfold State.bumpI
  split <;> rfl

theorem State.guarded_addToI (s : State) (x : RegIdx) : (s.addToI x).guarded = s.guarded := by
  unfold State.addToI
  split <;> rfl

theorem State.guarded_tickDelay (s : State) : s.tickDelay.guarded = s.guarded := by
  unfold State.tickDelay
  split <;> rfl

theorem State.guarded_tickSound (s : State) : s.tickSound.guarded = s.guarded := by
  unfold State.tickSound
  split
  · rfl
  · split <;> rfl

theorem guarded_tick (s : State) : (tick s).guarded = s.guarded := by
  unfold tick
  split
  · rfl
  · exact s.tickDelay.guarded_tickSound.trans s.guarded_tickDelay

/-! ### What an instruction can do to them -/

/-- What an instruction run from `s` can leave in the guarded parts of `t`, with what its rule guarantees of the values it writes. -/
inductive Effect (s t : State) : Prop
  /-- Registers, timers, I, events or the dirty flag alone. -/
  | quiet (h : t.guarded = s.guarded)
  /-- JP and JP V0: the largest target is `0xFFF + 0xFF` (40_control_flow R103, decision D6). -/
  | jump (a : Word) (ha : a.toNat ≤ 0x10FE) (h : t.guarded = (s.setPc a).guarded)
  /-- A skip that is taken. -/
  | skip (h : t.guarded = (s.setPc (s.pc + 2)).guarded)
  /-- A key wait that goes on. -/
  | wait (h : t.guarded = (s.setPc s.pc0).guarded)
  /-- CALL on a stack that is not full. -/
  | call (a : Word) (ha : a.toNat ≤ 0x10FE) (hroom : s.stackFull = false) (h : t.guarded = ((s.push s.pc).setPc a).guarded)
  /-- RET on a stack that is not empty. -/
  | ret (a : Word) (htop : s.stack.getLast? = some a) (h : t.guarded = (s.dropTop.setPc a).guarded)
  /-- CLS and DRW: the shape of the display stays. -/
  | draw (g : Grid) (hg : s.disp.shaped s.config.width s.config.height → g.shaped s.config.width s.config.height)
      (h : t.guarded = (s.setDisp g).guarded)
  /-- LD B and LD [I]. -/
  | store (bs : List Byte) (h : t.guarded = (s.storeAtI bs).guarded)
  /-- A terminal fault of the instruction itself (60_exceptions R183). -/
  | fault (f : LatchedFault) (hpc : f.pc0 = s.pc0) (haddr : ∀ pc0 addr, f = .memRange pc0 addr → memSize ≤ addr)
      (h : t.guarded = (s.raise f).guarded)

section

variable (s : State)

theorem toNat_addr12 (nnn : BitVec 12) : (addr12 nnn).toNat = nnn.toNat := by
  simp only [addr12, BitVec.toNat_setWidth]
  omega

theorem State.toNat_jumpTarget_le (nnn : BitVec 12) : (s.jumpTarget nnn).toNat ≤ 0x10FE := by
  have hv : (s.reg (s.jumpReg nnn)).toNat < 2 ^ 8 := BitVec.isLt _
  have hn : nnn.toNat < 2 ^ 12 := nnn.isLt
  simp only [State.jumpTarget, BitVec.toNat_add, toNat_addr12, BitVec.toNat_setWidth]
  omega

theorem effect_skipIf (c : Bool) : Effect s (s.skipIf c) := by
  cases c
  case false => exact .quiet rfl
  case true => exact .skip rfl

theorem effect_awaitKey (x : RegIdx) : Effect s (s.awaitKey x) := by
  unfold State.awaitKey
  split
  · exact .wait rfl
  · exact .quiet rfl

theorem effect_callTo {a : Word} (ha : a.toNat ≤ 0x10FE) : Effect s (s.callTo a) := by
  unfold State.callTo
  split
  · exact .fault (.stackOverflow s.pc0) rfl nofun rfl
  · exact .call a ha (Bool.eq_false_iff.2 ‹_›) rfl

theorem effect_returned : Effect s s.returned := by
  unfold State.returned
  split
  · exact .ret _ ‹_› rfl
  · exact .quiet rfl

theorem effect_drawSprite (x y : RegIdx) (n : Nat) : Effect s (s.drawSprite x y n) :=
  .draw (s.drawnCanvas x y n).grid (fun hg => shaped_drawRows _ _ _ hg) rfl

variable {s} in
theorem effect_checked {e : State} (he : Effect s e) (len : Nat) : Effect s (s.checked len e) := by
  rcases s.checked_cases len e with ⟨-, h⟩ | ⟨-, h⟩ <;> rw [h]
  · exact he
  · refine .fault (.memRange s.pc0 (max s.i.toNat memSize)) rfl ?_ rfl
    rintro _ _ ⟨⟩
    exact Nat.le_max_right _ _

/-- Every instruction answers a next state, and this is all it can do to the guarded parts. -/
theorem exec_effect (i : Instr) : ∃ t, exec i s = .next t ∧ Effect s t := by
  cases i with
  | sys | ldImm | addImm | ldReg | orReg | andReg | xorReg | addReg | subReg | shrReg | subnReg | shlReg | ldI | rnd | ldVxDt | ldDtVx
  | ldStVx | ldFVx => exact ⟨_, rfl, .quiet rfl⟩
  | addIVx x => exact ⟨_, rfl, .quiet (s.guarded_addToI x)⟩
  | jp nnn => exact ⟨_, rfl, .jump (addr12 nnn) (by have := toNat_addr12 nnn; omega) rfl⟩
  | jpV0 nnn => exact ⟨_, rfl, .jump (s.jumpTarget nnn) (s.toNat_jumpTarget_le nnn) rfl⟩
  | seImm | sneImm | seReg | sneReg | skp | sknp => exact ⟨_, rfl, effect_skipIf s _⟩
  | ldVxK x => exact ⟨_, rfl, effect_awaitKey s x⟩
  | call nnn => exact ⟨_, rfl, effect_callTo s (by have := toNat_addr12 nnn; omega)⟩
  | ret => exact ⟨_, rfl, effect_returned s⟩
  | cls => exact ⟨_, rfl, .draw _ (fun _ => Grid.shaped_blank _ _) rfl⟩
  | drw x y n => exact ⟨_, rfl, effect_checked (effect_drawSprite s x y n.toNat) _⟩
  | ldBVx x => exact ⟨_, rfl, effect_checked (.store _ rfl) _⟩
  | ldMemVx x => exact ⟨_, rfl, effect_checked (.store _ (State.guarded_bumpI _ _)) _⟩
  | ldVxMem x =>
    exact ⟨_, rfl, effect_checked (.quiet ((State.guarded_bumpI _ _).trans (s.guarded_loadRegs _ _))) _⟩

end

/-- Every CYCLE answers a next state: the same one, the fetch fault's, or what an instruction (an unknown word, which is quiet) leaves after
the fetch of two bytes inside memory. -/
theorem cycle_effect (s : State) : ∃ t, cycle s = .next t ∧
    (t = s ∨ t = s.raise s.fetchFault ∨ (s.fault = none ∧ s.pc.toNat + 1 < memSize ∧ Effect (s.setPc (s.pc + 2)) t)) := by
  obtain ⟨-, h⟩ | ⟨-, -, h⟩ | ⟨i, hrun, hpc, -, h⟩ | ⟨hrun, hpc, -, h⟩ := cycle_cases s
  · exact ⟨_, h, .inl rfl⟩
  · exact ⟨_, h, .inr (.inl rfl)⟩
  · obtain ⟨t, ht, he⟩ := exec_effect (s.setPc (s.pc + 2)) i
    exact ⟨t, h.trans ht, .inr (.inr ⟨hrun, hpc, he⟩)⟩
  · exact ⟨_, h, .inr (.inr ⟨hrun, hpc, .quiet rfl⟩)⟩

/-! ### Which operation a step performs -/

/-- A step reads the state through the next operation and the state with that operation taken. -/
theorem step_congr {s t : State} (hop : t.nextOp = s.nextOp) (htake : t.takeOp = s.takeOp) : step t = step s := by
  simp only [step, hostStep, State.beginCycle, hop, htake]

theorem step_reset {s : State} {rom : List Byte} {config : Config} (h : s.nextOp = .reset rom config) :
    step s = resetOp rom config s.takeOp := by
  rw [step, hostStep, h]

/-- A RESET that answers a next state had legal parameters and answers the machine it constructs. -/
theorem resetOp_next {s t : State} {rom : List Byte} {config : Config} (h : resetOp rom config s = .next t) :
    config.legal ∧ t = s.constructed rom config := by
  obtain ⟨hlegal, -, hr⟩ | ⟨-, -, hr⟩ | ⟨-, hr⟩ := resetOp_cases rom config s <;> cases hr.symm.trans h
  exact ⟨hlegal, rfl⟩

/-! ### The parameters -/

theorem Effect.config_eq {s t : State} (he : Effect s t) : t.config = s.config := by
  cases he with
  | quiet h | skip h | wait h | jump _ _ h | call _ _ _ h | ret _ _ h | draw _ _ h | store _ h | fault _ _ _ h =>
    exact (State.config_of_guarded h :)

theorem config_cycle {s t : State} (h : cycle s = .next t) : t.config = s.config := by
  obtain ⟨u, hu, hcases⟩ := cycle_effect s
  cases hu.symm.trans h
  obtain rfl | rfl | ⟨-, -, he⟩ := hcases
  · rfl
  · rfl
  · exact he.config_eq

/-! ### The invariant -/

/-- The invariant reads the guarded parts alone. -/
theorem State.Inv.congr {s t : State} (hs : s.Inv) (h : t.guarded = s.guarded) : t.Inv := by
  simp only [State.guarded, Guarded.mk.injEq] at h
  obtain ⟨hmem, hdisp, hconfig, hpc, hstack, hfault⟩ := h
  constructor
  case memory => exact hmem ▸ hs.memory
  case display => exact hdisp ▸ hconfig ▸ hs.display
  case parameters => exact hconfig ▸ hs.parameters
  case pcBound => exact hpc ▸ hs.pcBound
  case returns => exact hstack ▸ hs.returns
  case capacity => exact hstack ▸ hconfig ▸ hs.capacity
  case latch => simpa only [State.latchPrecise, hfault, hpc] using hs.latch

theorem State.latchPrecise_of_running {s : State} (h : s.fault = none) : s.latchPrecise :=
  fun _ hf => nomatch h.symm.trans hf

section

variable {s : State}

theorem State.Inv.setPc (hs : s.Inv) (hrun : s.fault = none) {a : Word} (ha : a.toNat ≤ 0x10FE) : (s.setPc a).Inv :=
  { hs with pcBound := ha, latch := State.latchPrecise_of_running hrun }

theorem State.Inv.setDisp (hs : s.Inv) {g : Grid} (hg : g.shaped s.config.width s.config.height) : (s.setDisp g).Inv :=
  { hs with display := hg }

theorem State.Inv.storeAtI (hs : s.Inv) (bs : List Byte) : (s.storeAtI bs).Inv :=
  { hs with memory := Memory.wf_writeBytes hs.memory _ bs }

/-- A stack that is not full has room for one entry more. -/
theorem State.length_lt_of_not_full (h : s.stackFull = false) {c : Nat} (hc : s.config.stackCapacity = some c) :
    s.stack.length < c := by
  simpa [State.stackFull, hc] using h

theorem State.Inv.push (hs : s.Inv) (hroom : s.stackFull = false) {a : Word} (ha : a.toNat ≤ 0x1000) : (s.push a).Inv where
  __ := hs
  returns b hb := by
    rcases List.mem_append.1 hb with hb | hb
    · exact hs.returns b hb
    · rwa [List.mem_singleton.1 hb]
  capacity c hc := by
    have := State.length_lt_of_not_full hroom hc
    simpa using this

theorem State.Inv.dropTop (hs : s.Inv) : s.dropTop.Inv where
  __ := hs
  returns a ha := hs.returns a (List.mem_of_mem_dropLast ha)
  capacity c hc := by
    have := hs.capacity c hc
    simp only [State.dropTop_stack, List.length_dropLast]
    omega

theorem State.Inv.raise (hs : s.Inv) {f : LatchedFault} (hpc : f.pc0.toNat ≤ 0x10FE)
    (haddr : ∀ pc0 addr, f = .memRange pc0 addr → memSize ≤ addr) : (s.raise f).Inv where
  __ := hs
  pcBound := hpc
  latch := by
    rintro _ ⟨⟩
    exact ⟨rfl, haddr⟩

/-- Past an address below 0x1001 a step of 2 does not wrap. -/
theorem toNat_add_two {a : Word} (h : a.toNat ≤ 0x1000) : (a + 2).toNat = a.toNat + 2 := by
  have : (2 : Word).toNat = 2 := rfl
  rw [BitVec.toNat_add, this]
  omega

/-- An instruction fetched at `pc0 ≤ 4094` in a running machine keeps the invariant: pc stands at `pc0 + 2`, so that a skip, a return
address and the way back to `pc0` stay within their bounds. -/
theorem Effect.inv {t : State} (he : Effect s t) (hs : s.Inv) (hrun : s.fault = none) (hpc : s.pc.toNat ≤ 0x1000)
    (hpc0 : s.pc0.toNat ≤ 0x10FE) : t.Inv := by
  cases he with
  | quiet h => exact hs.congr h
  | jump a ha h => exact (hs.setPc hrun ha).congr h
  | skip h =>
    have := toNat_add_two hpc
    exact (hs.setPc hrun (by omega)).congr h
  | wait h => exact (hs.setPc hrun hpc0).congr h
  | call a ha hroom h => exact ((hs.push hroom hpc).setPc hrun ha).congr h
  | ret a htop h =>
    have : a.toNat ≤ 0x1000 := hs.returns a (List.mem_of_getLast? htop)
    exact (hs.dropTop.setPc hrun (by omega)).congr h
  | draw g hg h => exact (hs.setDisp (hg hs.display)).congr h
  | store bs h => exact (hs.storeAtI bs).congr h
  | fault f hf haddr h => exact (hs.raise (hf ▸ hpc0) haddr).congr h

theorem inv_cycle (hs : s.Inv) {t : State} (h : cycle s = .next t) : t.Inv := by
  obtain ⟨u, hu, hcases⟩ := cycle_effect s
  cases hu.symm.trans h
  obtain rfl | rfl | ⟨hrun, hpc, he⟩ := hcases
  · exact hs
  · refine hs.raise hs.pcBound ?_
    rintro _ _ ⟨⟩
    exact Nat.le_max_right _ _
  · have hpc' : s.pc.toNat + 1 < 4096 := hpc
    have hnext : (s.pc + 2).toNat ≤ 0x1000 := by
      have := toNat_add_two (a := s.pc) (by omega)
      omega
    have hback : (s.setPc (s.pc + 2)).pc0 = s.pc := BitVec.add_sub_cancel s.pc 2
    exact he.inv (hs.setPc hrun (by omega)) hrun hnext ((congrArg BitVec.toNat hback).trans_le hs.pcBound)

variable (s) in
theorem State.inv_constructed (rom : List Byte) {config : Config} (h : config.legal) : (s.constructed rom config).Inv where
  memory := by simpa only [State.constructed_mem] using Memory.wf_ofReset _ rom
  display := by simpa only [State.constructed_disp, State.constructed_config] using Grid.shaped_blank _ _
  parameters := by simpa only [State.constructed_config] using h
  pcBound := by simp
  returns := by simp
  capacity := by simp
  latch := State.latchPrecise_of_running (State.constructed_fault s rom config)

end

end Sys2Proof.Machine
end

section
/-! The obligations of the scope: whole-machine rules and the host's schedule (00_scope). -/

namespace Sys2Proof.Proofs

open Sys2Proof.Machine Sys2Proof.Claims

/-- Settles O15: by the operation of the step; a CYCLE by `inv_cycle`, a RESET by the machine it constructs, and TICK and CLEAR_DIRTY touch
nothing the invariant reads. -/
theorem everyStepKeepsTheInvariant : Obligations.EveryStepKeepsTheInvariant := by
  intro s t hs h
  obtain ⟨input, -, hstep⟩ | ⟨-, hstep⟩ | ⟨-, hstep⟩ | ⟨rom, config, -, hstep⟩ := step_cases s
  · exact inv_cycle (hs.congr (t := s.beginCycle input) rfl) (hstep.symm.trans h)
  · cases hstep.symm.trans h
    exact hs.congr (guarded_tick s.takeOp)
  · cases hstep.symm.trans h
    exact hs.congr rfl
  · obtain ⟨hlegal, rfl⟩ := resetOp_next (hstep.symm.trans h)
    exact s.takeOp.inv_constructed rom hlegal

/-- Settles O17: no effect of an instruction, and neither TICK nor CLEAR_DIRTY, writes the parameters. -/
theorem onlyResetChangesTheParameters : Obligations.OnlyResetChangesTheParameters := by
  intro s t h hnot
  obtain ⟨input, -, hstep⟩ | ⟨-, hstep⟩ | ⟨-, hstep⟩ | ⟨rom, config, hop, -⟩ := step_cases s
  · exact config_cycle (s := s.beginCycle input) (hstep.symm.trans h)
  · cases hstep.symm.trans h
    exact State.config_of_guarded (guarded_tick s.takeOp)
  · cases hstep.symm.trans h
    rfl
  · simp [resetNext, hop] at hnot

/-- Settles O7: the free operation is next in both states, and taking it leaves the same state. -/
theorem anExhaustedScheduleGoesOnFreely : Obligations.AnExhaustedScheduleGoesOnFreely := by
  intro s hs
  refine (step_congr ?_ ?_).symm
  · exact (State.nextOp_of_nil hs).symm
  · simp [State.takeOp, hs]

/-- Settles O27: of the three outcomes of a RESET only the refusal has illegal parameters. -/
theorem resetRefusesIllegalParameters : Obligations.ResetRefusesIllegalParameters := by
  intro s rom config hop hillegal
  obtain ⟨hlegal, -⟩ | ⟨hlegal, -⟩ | ⟨-, hreset⟩ := resetOp_cases rom config s.takeOp
  · exact absurd hlegal hillegal
  · exact absurd hlegal hillegal
  · exact (step_reset hop).trans hreset

/-- Settles O28: the memory RESET lists is empty, because the default font and no program are what an unlisted address reads as. -/
theorem resetStateIsTheEmptyImageReset : Obligations.ResetStateIsTheEmptyImageReset := by
  have hmem : Memory.ofReset Config.default.fontBase [] = [] := Memory.ofReset_default
  refine (step_reset (rom := []) (config := Config.default) rfl).trans ?_
  rw [resetOp, if_neg (by decide), if_neg (by decide), State.constructed, hmem]
  rfl

end Sys2Proof.Proofs
end

section
/-! Frames (Safety.lean's `State.unchangedBut`) of every update and of every instruction. -/

namespace Sys2Proof.Machine

open Sys2Proof.Claims

/-! ### Reading and composing frames -/

section

variable {s t u : State} {regs regs' : List RegIdx} {parts parts' : List Part}

theorem State.unchangedBut.reg (h : s.unchangedBut t regs parts) {q : RegIdx} (hq : q ∉ regs) : t.reg q = s.reg q := h.1 q hq

theorem State.unchangedBut.part (h : s.unchangedBut t regs parts) {p : Part} (hp : p ∉ parts) : s.samePart t p := h.2 p hp

theorem State.unchangedBut.refl (s : State) : s.unchangedBut s [] [] := ⟨fun _ _ => rfl, fun p _ => s.samePart_refl p⟩

theorem State.unchangedBut.mono (h : s.unchangedBut t regs parts) (hregs : regs ⊆ regs') (hparts : parts ⊆ parts') :
    s.unchangedBut t regs' parts' :=
  ⟨fun _ hq => h.reg fun hq' => hq (hregs hq'), fun _ hp => h.part fun hp' => hp (hparts hp')⟩

/-- One update after another writes what either writes. -/
theorem State.unchangedBut.trans (h : s.unchangedBut t regs parts) (h' : t.unchangedBut u regs' parts') :
    s.unchangedBut u (regs ++ regs') (parts ++ parts') := by
  have hregs := h.mono (List.subset_append_left regs regs') (List.subset_append_left parts parts')
  have hregs' := h'.mono (List.subset_append_right regs regs') (List.subset_append_right parts parts')
  exact ⟨fun _ hq => (hregs'.reg hq).trans (hregs.reg hq), fun _ hp => State.samePart_trans (hregs.part hp) (hregs'.part hp)⟩

end

/-! ### The frame of every update -/

section

variable (s : State)

theorem State.unchangedBut_setReg (r : RegIdx) (b : Byte) : s.unchangedBut (s.setReg r b) [r] [] :=
  ⟨fun _ hq => s.reg_setReg_other b (mt List.mem_singleton.2 hq), fun p _ => s.samePart_setReg r b p⟩

theorem State.unchangedBut_setPc (a : Word) : s.unchangedBut (s.setPc a) [] [.pc] :=
  ⟨fun _ _ => rfl, fun p _ => by cases p <;> simp_all [State.samePart]⟩

theorem State.unchangedBut_setI (a : Word) : s.unchangedBut (s.setI a) [] [.i] :=
  ⟨fun _ _ => rfl, fun p _ => by cases p <;> simp_all [State.samePart]⟩

theorem State.unchangedBut_setDt (b : Byte) : s.unchangedBut (s.setDt b) [] [.dt] :=
  ⟨fun _ _ => rfl, fun p _ => by cases p <;> simp_all [State.samePart]⟩

theorem State.unchangedBut_setSt (b : Byte) : s.unchangedBut (s.setSt b) [] [.st] :=
  ⟨fun _ _ => rfl, fun p _ => by cases p <;> simp_all [State.samePart]⟩

theorem State.unchangedBut_emit (e : Event) : s.unchangedBut (s.emit e) [] [.events] :=
  ⟨fun _ _ => rfl, fun p _ => by cases p <;> simp_all [State.samePart]⟩

theorem State.unchangedBut_push (a : Word) : s.unchangedBut (s.push a) [] [.stack] :=
  ⟨fun _ _ => rfl, fun p _ => by cases p <;> simp_all [State.samePart]⟩

theorem State.unchangedBut_dropTop : s.unchangedBut s.dropTop [] [.stack] :=
  ⟨fun _ _ => rfl, fun p _ => by cases p <;> simp_all [State.samePart]⟩

theorem State.unchangedBut_storeAtI (bs : List Byte) : s.unchangedBut (s.storeAtI bs) [] [.mem] :=
  ⟨fun _ _ => rfl, fun p _ => by cases p <;> simp_all [State.samePart]⟩

theorem State.unchangedBut_setDisp (g : Grid) : s.unchangedBut (s.setDisp g) [] [.disp, .dirty] :=
  ⟨fun _ _ => rfl, fun p _ => by cases p <;> simp_all [State.samePart]⟩

theorem State.unchangedBut_raise (f : LatchedFault) : s.unchangedBut (s.raise f) [] [.pc, .fault] :=
  ⟨fun _ _ => rfl, fun p _ => by cases p <;> simp_all [State.samePart]⟩

theorem State.unchangedBut_takeOp : s.unchangedBut s.takeOp [] [.host, .freeCount] :=
  ⟨fun _ _ => rfl, fun p _ => by cases p <;> simp_all [State.samePart]⟩

theorem State.unchangedBut_beginCycle (input : CycleInput) : s.unchangedBut (s.beginCycle input) [] [.host, .input, .freeCount] :=
  ⟨fun _ _ => rfl, fun p _ => by cases p <;> simp_all [State.samePart]⟩

theorem unchangedBut_clearDirty : s.unchangedBut (clearDirty s) [] [.dirty] :=
  ⟨fun _ _ => rfl, fun p _ => by cases p <;> simp_all [State.samePart, clearDirty]⟩

/-! ### The frame of every composed update -/

theorem State.unchangedBut_setFlag (b : Bool) : s.unchangedBut (s.setFlag b) [vf] [] := s.unchangedBut_setReg vf _

theorem State.unchangedBut_setResultFlag (x : RegIdx) (b : Byte) (flag : Bool) :
    s.unchangedBut (s.setResultFlag x b flag) [x, vf] [] :=
  (s.unchangedBut_setReg x b).trans (State.unchangedBut_setFlag _ flag)

theorem State.unchangedBut_unknownWord (op : Word) : s.unchangedBut (s.unknownWord op) [] [.events] := s.unchangedBut_emit _

theorem State.unchangedBut_skipIf (c : Bool) : s.unchangedBut (s.skipIf c) [] [.pc] :=
  ⟨fun q _ => s.reg_skipIf c q, fun _ hp => s.samePart_skipIf c (mt List.mem_singleton.2 hp)⟩

theorem State.unchangedBut_awaitKey (x : RegIdx) : s.unchangedBut (s.awaitKey x) [x] [.pc] := by
  unfold State.awaitKey
  split
  · exact (s.unchangedBut_setPc _).mono (by simp) (by simp)
  · exact (s.unchangedBut_setReg x _).mono (by simp) (by simp)

theorem State.unchangedBut_callTo (a : Word) : s.unchangedBut (s.callTo a) [] [.pc, .stack, .fault] := by
  unfold State.callTo
  split
  · exact (s.unchangedBut_raise _).mono (by simp) (by simp)
  · exact ((s.unchangedBut_push _).trans (State.unchangedBut_setPc _ a)).mono (by simp) (by simp)

theorem State.unchangedBut_returned : s.unchangedBut s.returned [] [.pc, .stack, .events] := by
  unfold State.returned
  split
  · exact (s.unchangedBut_dropTop.trans (State.unchangedBut_setPc _ _)).mono (by simp) (by simp)
  · exact (s.unchangedBut_emit _).mono (by simp) (by simp)

theorem State.unchangedBut_addToI (x : RegIdx) : s.unchangedBut (s.addToI x) [vf] [.i] := by
  unfold State.addToI
  split
  · exact (s.unchangedBut_setI _).trans (State.unchangedBut_setFlag _ true)
  · exact (s.unchangedBut_setI _).mono (by simp) (by simp)

theorem State.unchangedBut_bumpI (n : Nat) : s.unchangedBut (s.bumpI n) [] [.i] :=
  ⟨fun q _ => s.reg_bumpI n q, fun _ hp => s.samePart_bumpI n (mt List.mem_singleton.2 hp)⟩

theorem State.unchangedBut_drawSprite (x y : RegIdx) (n : Nat) : s.unchangedBut (s.drawSprite x y n) [vf] [.disp, .dirty] :=
  (s.unchangedBut_setDisp _).trans (State.unchangedBut_setFlag _ _)

/-- A load of `x + 1` registers writes V0 to VX (45_memory_index R151). -/
theorem State.unchangedBut_loadRegs (base : Nat) (x : RegIdx) :
    s.unchangedBut (s.loadRegs base (x.val + 1)) ((List.finRange 16).filter fun r => decide (r ≤ x)) [] := by
  refine ⟨fun q hq => ?_, fun p _ => s.samePart_loadRegs base p _⟩
  have hlt : ¬q.val < x.val + 1 := by simpa [Nat.lt_succ_iff] using hq
  rw [s.reg_loadRegs base q _ x.isLt, if_neg hlt]

variable {s} in
/-- A checked effect writes what the effect writes, or pc and the latch (60_exceptions R183). -/
theorem State.unchangedBut_checked {e : State} {regs : List RegIdx} {parts : List Part} (he : s.unchangedBut e regs parts)
    (len : Nat) : s.unchangedBut (s.checked len e) regs (parts ++ [.pc, .fault]) := by
  obtain ⟨-, h⟩ | ⟨-, h⟩ := s.checked_cases len e <;> rw [h]
  · exact he.mono (List.Subset.refl _) (List.subset_append_left _ _)
  · exact (s.unchangedBut_raise _).mono (List.nil_subset _) (List.subset_append_right _ _)

theorem State.unchangedBut_tickDelay : s.unchangedBut s.tickDelay [] [.dt] := by
  unfold State.tickDelay
  split
  · exact (State.unchangedBut.refl s).mono (by simp) (by simp)
  · exact s.unchangedBut_setDt _

theorem State.unchangedBut_tickSound : s.unchangedBut s.tickSound [] [.st, .events] := by
  unfold State.tickSound
  split
  · exact (State.unchangedBut.refl s).mono (by simp) (by simp)
  · split
    · exact (s.unchangedBut_setSt 0).trans (State.unchangedBut_emit _ _)
    · exact (s.unchangedBut_setSt _).mono (by simp) (by simp)

theorem unchangedBut_tick : s.unchangedBut (tick s) [] [.dt, .st, .events] := by
  unfold tick
  split
  · exact (State.unchangedBut.refl s).mono (by simp) (by simp)
  · exact s.unchangedBut_tickDelay.trans (State.unchangedBut_tickSound _)

end

/-! ### The frame of every instruction -/

/-- The parts an instruction's rule lets it write, memory among them where the rule stores. -/
def partsTouched : Instr → List Part
  | .ldBVx x => .mem :: partsWritten (.ldBVx x)
  | .ldMemVx x => .mem :: partsWritten (.ldMemVx x)
  | i => partsWritten i

theorem partsTouched_subset (i : Instr) : partsTouched i ⊆ .mem :: partsWritten i := by
  cases i with
  | ldBVx | ldMemVx => exact List.Subset.refl _
  | _ => exact List.subset_cons_self _ _

theorem mem_not_mem_partsTouched {i : Instr} (h : storeLength i = 0) : Part.mem ∉ partsTouched i := by
  cases i <;> simp_all [partsTouched, partsWritten, storeLength]

theorem disp_mem_partsTouched {i : Instr} (h : Part.disp ∈ partsTouched i) : i = .cls ∨ ∃ x y n, i = .drw x y n := by
  cases i <;> simp_all [partsTouched, partsWritten]

theorem dirty_mem_partsTouched {i : Instr} (h : Part.dirty ∈ partsTouched i) : i = .cls ∨ ∃ x y n, i = .drw x y n := by
  cases i <;> simp_all [partsTouched, partsWritten]

theorem stack_mem_partsTouched {i : Instr} (h : Part.stack ∈ partsTouched i) : (∃ nnn, i = .call nnn) ∨ i = .ret := by
  cases i <;> simp_all [partsTouched, partsWritten]

/-- Every instruction answers a next state and writes what its rule names alone. -/
theorem exec_next_frame (i : Instr) (s : State) :
    ∃ t, exec i s = .next t ∧ s.unchangedBut t (regsWritten i) (partsTouched i) := by
  cases i with
  | sys nnn => exact ⟨_, rfl, s.unchangedBut_unknownWord _⟩
  | cls => exact ⟨_, rfl, s.unchangedBut_setDisp _⟩
  | ret => exact ⟨_, rfl, s.unchangedBut_returned⟩
  | call nnn => exact ⟨_, rfl, s.unchangedBut_callTo _⟩
  | jp | jpV0 => exact ⟨_, rfl, s.unchangedBut_setPc _⟩
  | seImm | sneImm | seReg | sneReg | skp | sknp => exact ⟨_, rfl, s.unchangedBut_skipIf _⟩
  | ldImm | addImm | ldReg | orReg | andReg | xorReg | rnd | ldVxDt => exact ⟨_, rfl, s.unchangedBut_setReg _ _⟩
  | addReg | subReg | shrReg | subnReg | shlReg => exact ⟨_, rfl, s.unchangedBut_setResultFlag _ _ _⟩
  | ldI | ldFVx => exact ⟨_, rfl, s.unchangedBut_setI _⟩
  | ldVxK x => exact ⟨_, rfl, s.unchangedBut_awaitKey x⟩
  | ldDtVx x => exact ⟨_, rfl, s.unchangedBut_setDt _⟩
  | ldStVx x => exact ⟨_, rfl, s.unchangedBut_setSt _⟩
  | addIVx x => exact ⟨_, rfl, s.unchangedBut_addToI x⟩
  | drw x y n => exact ⟨_, rfl, State.unchangedBut_checked (s.unchangedBut_drawSprite x y n.toNat) _⟩
  | ldBVx x => exact ⟨_, rfl, State.unchangedBut_checked (s.unchangedBut_storeAtI _) _⟩
  | ldMemVx x =>
    exact ⟨_, rfl, State.unchangedBut_checked ((s.unchangedBut_storeAtI _).trans (State.unchangedBut_bumpI _ _)) _⟩
  | ldVxMem x =>
    have hload := (s.unchangedBut_loadRegs s.i.toNat x).trans (State.unchangedBut_bumpI _ (x.val + 1))
    rw [List.append_nil] at hload
    exact ⟨_, rfl, State.unchangedBut_checked hload _⟩

theorem exec_frame {i : Instr} {s t : State} (h : exec i s = .next t) :
    s.unchangedBut t (regsWritten i) (partsTouched i) := by
  obtain ⟨u, hu, hframe⟩ := exec_next_frame i s
  cases hu.symm.trans h
  exact hframe

/-- An instruction that stores leaves memory as it was (its range passes 4095), or stores its whole run of bytes at I. -/
theorem exec_store {i : Instr} {s t : State} (hst : storeLength i ≠ 0) (h : exec i s = .next t) :
    t.mem = s.mem ∨ ∃ bs : List Byte, bs.length = storeLength i ∧ s.i.toNat + bs.length ≤ memSize ∧
      t.mem = s.mem.writeBytes s.i.toNat bs := by
  cases i with
  | ldBVx x =>
    cases h
    obtain ⟨hfit, hc⟩ | ⟨-, hc⟩ := s.checked_cases 3 (s.storeAtI (bcdDigits (s.reg x))) <;> rw [hc]
    · exact .inr ⟨bcdDigits (s.reg x), rfl, hfit.resolve_left (by omega), rfl⟩
    · exact .inl rfl
  | ldMemVx x =>
    cases h
    obtain ⟨hfit, hc⟩ | ⟨-, hc⟩ :=
      s.checked_cases (x.val + 1) ((s.storeAtI (s.regBytes (x.val + 1))).bumpI (x.val + 1)) <;> rw [hc]
    · refine .inr ⟨s.regBytes (x.val + 1), s.length_regBytes _, ?_, congrArg Guarded.mem (State.guarded_bumpI _ _)⟩
      rw [State.length_regBytes]
      exact hfit.resolve_left (by omega)
    · exact .inl rfl
  | _ => exact absurd rfl hst

end Sys2Proof.Machine
end

section
/-! What a step can do: the cases of one that is no RESET, and the one answer of RESET, of CLEAR_DIRTY and of a machine under a latch. -/

namespace Sys2Proof.Machine

open Sys2Proof.Claims

/-! ### The cases of a step -/

/-- The state an instruction runs in: the CYCLE has begun and pc is past the instruction (30_encoding R70). -/
def State.fetched (s : State) (input : CycleInput) : State := (s.beginCycle input).setPc (s.pc + 2)

theorem State.unchangedBut_fetched (s : State) (input : CycleInput) :
    s.unchangedBut (s.fetched input) [] [.host, .input, .freeCount, .pc] :=
  (s.unchangedBut_beginCycle input).trans (State.unchangedBut_setPc _ (s.pc + 2))

theorem runsNext_of_decodeWord {s : State} {input : CycleInput} {i : Instr} (hop : s.nextOp = .cycle input) (hrun : s.fault = none)
    (hpc : s.pc.toNat + 1 < memSize) (hd : decodeWord s.fetchWord = some i) : runsNext s i := by
  refine ⟨by simp [cycleNext, hop], hrun, hpc, ?_⟩
  rw [State.fetchWord] at hd
  simp only [decode, hd]

/-- A step that is no RESET is CLEAR_DIRTY, or it runs an instruction, or it writes none of registers, I, stack, memory, display, dirty flag
and parameters (TICK, a frozen CYCLE, a fetch fault, an unknown word). -/
theorem step_cases_of_not_reset {s t : State} (h : step s = .next t) (hnot : resetNext s = false) :
    (clearDirtyNext s = true ∧ t = clearDirty s.takeOp) ∨
    (∃ i input, runsNext s i ∧ exec i (s.fetched input) = .next t) ∨
    s.unchangedBut t [] [.pc, .dt, .st, .fault, .input, .host, .events, .freeCount] := by
  obtain ⟨input, hop, hstep⟩ | ⟨-, hstep⟩ | ⟨hop, hstep⟩ | ⟨rom, config, hop, -⟩ := step_cases s
  · have hbegin := s.unchangedBut_beginCycle input
    have hcycle := hstep.symm.trans h
    obtain ⟨-, hc⟩ | ⟨-, -, hc⟩ | ⟨i, hrun, hpc, hd, hc⟩ | ⟨-, -, -, hc⟩ := cycle_cases (s.beginCycle input)
    · cases hc.symm.trans hcycle
      exact .inr (.inr (hbegin.mono (by simp) (by simp)))
    · cases hc.symm.trans hcycle
      exact .inr (.inr ((hbegin.trans (State.unchangedBut_raise _ _)).mono (by simp) (by simp)))
    · exact .inr (.inl ⟨i, input, runsNext_of_decodeWord hop hrun hpc hd, hc.symm.trans hcycle⟩)
    · cases hc.symm.trans hcycle
      have hword := (s.unchangedBut_fetched input).trans (State.unchangedBut_unknownWord _ s.fetchWord)
      exact .inr (.inr (hword.mono (by simp) (by simp)))
  · cases hstep.symm.trans h
    exact .inr (.inr ((s.unchangedBut_takeOp.trans (unchangedBut_tick _)).mono (by simp) (by simp)))
  · cases hstep.symm.trans h
    exact .inl ⟨by simp [clearDirtyNext, hop], rfl⟩
  · simp [resetNext, hop] at hnot

/-- A RESET that answers a next state answers the machine it constructs. -/
theorem constructed_of_resetNext {s t : State} (h : step s = .next t) (hreset : resetNext s = true) :
    ∃ rom config, t = s.takeOp.constructed rom config := by
  obtain ⟨input, hop, -⟩ | ⟨hop, -⟩ | ⟨hop, -⟩ | ⟨rom, config, -, hstep⟩ := step_cases s
  · simp [resetNext, hop] at hreset
  · simp [resetNext, hop] at hreset
  · simp [resetNext, hop] at hreset
  · exact ⟨rom, config, (resetOp_next (hstep.symm.trans h)).2⟩

theorem step_reset_of_legal {s : State} {rom : List Byte} {config : Config} (hop : s.nextOp = .reset rom config) (hlegal : config.legal)
    (hlen : rom.length ≤ memSize - programStart) : step s = .next (s.takeOp.constructed rom config) := by
  obtain ⟨-, -, h⟩ | ⟨-, hlong, -⟩ | ⟨hillegal, -⟩ := resetOp_cases rom config s.takeOp
  · exact (step_reset hop).trans h
  · exact absurd hlen (Nat.not_le.2 hlong)
  · exact absurd hlegal hillegal

theorem step_clearDirty {s : State} (h : s.nextOp = .clearDirty) : step s = .next (clearDirty s.takeOp) := by
  rw [step, hostStep, h]

/-! ### Under a latched fault -/

theorem cycle_of_faulted {s : State} (h : s.fault ≠ none) : cycle s = .next s :=
  if_pos (Option.isSome_iff_ne_none.2 h)

theorem tick_of_faulted {s : State} (h : s.fault ≠ none) : tick s = s :=
  if_pos (Option.isSome_iff_ne_none.2 h)

end Sys2Proof.Machine
end

section
/-! Values the obligations of the state speak of: the dirty flag, the stack, a result with its flag, the memory RESET leaves. -/

namespace Sys2Proof.Machine

open Sys2Proof.Claims

/-! ### The dirty flag and the stack -/

/-- Neither CLS nor DRW, nor any other instruction, lowers the dirty flag. -/
theorem exec_keeps_dirty {i : Instr} {s t : State} (h : exec i s = .next t) (hs : s.dirty = true) : t.dirty = true := by
  by_cases hd : Part.dirty ∈ partsTouched i
  · obtain rfl | ⟨x, y, n, rfl⟩ := dirty_mem_partsTouched hd
    · cases h
      rfl
    · cases h
      obtain ⟨-, hc⟩ | ⟨-, hc⟩ := s.checked_cases n.toNat (s.drawSprite x y n.toNat) <;> rw [hc]
      · rfl
      · exact hs
  · have hsame : t.dirty = s.dirty := (exec_frame h).part hd
    exact hsame.trans hs

theorem State.stack_callTo (s : State) (a : Word) : (s.callTo a).stack = s.stack ∨ (s.callTo a).stack = s.stack ++ [s.pc] := by
  unfold State.callTo
  split
  · exact .inl rfl
  · exact .inr rfl

/-- RET pops the newest entry into pc, or the stack is empty and stays so (40_control_flow R102). -/
theorem State.stack_returned (s : State) :
    s.returned.stack = s.stack ∨ ∃ a, s.stack = s.returned.stack ++ [a] ∧ s.returned.pc = a := by
  unfold State.returned
  split
  · next a htop => exact .inr ⟨a, (List.dropLast_append_getLast? a htop).symm, rfl⟩
  · exact .inl rfl

theorem State.stackFull_iff (s : State) : s.stackFull = true ↔ ¬stackHasRoom s := by
  unfold State.stackFull stackHasRoom
  cases s.config.stackCapacity <;> simp

theorem State.callTo_of_full {s : State} (h : s.stackFull = true) (a : Word) : s.callTo a = s.raise (.stackOverflow s.pc0) :=
  if_pos h

/-! ### A result and its flag -/

theorem State.vf_setResultFlag (s : State) (x : RegIdx) (b : Byte) (flag : Bool) :
    (s.setResultFlag x b flag).reg vf = if flag then 1 else 0 := by
  rw [State.reg_setResultFlag, if_pos rfl, flagByte]

theorem State.reg_setResultFlag_of_ne (s : State) {x : RegIdx} (h : x ≠ vf) (b : Byte) (flag : Bool) :
    (s.setResultFlag x b flag).reg x = b := by
  rw [State.reg_setResultFlag, if_neg h, if_pos rfl]

theorem toNat_sub_byte (a b : Byte) : (a - b).toNat = (256 + a.toNat - b.toNat) % 256 := by
  have ha : a.toNat < 2 ^ 8 := a.isLt
  have hb : b.toNat < 2 ^ 8 := b.isLt
  rw [BitVec.toNat_sub]
  omega

/-! ### The contents of memory after RESET (70_reset R201) -/

section

variable {fontBase : Nat} {rom : List Byte}

theorem resetByte_of_rom {k : Nat} (h : k < rom.length) : resetByte fontBase rom (programStart + k) = rom.getD k 0 := by
  rw [resetByte, if_pos (by omega), Nat.add_sub_cancel_left]

/-- The glyphs lie below the program (00_scope R4). -/
theorem resetByte_of_font (hbase : fontBase + fontSize ≤ programStart) {k : Nat} (h : k < fontSize) :
    resetByte fontBase rom (fontBase + k) = font.getD k 0 := by
  rw [resetByte, if_neg (by omega), if_pos (by omega), Nat.add_sub_cancel_left, fontByte]

theorem resetByte_of_neither {a : Nat} (hfont : ¬(fontBase ≤ a ∧ a < fontBase + fontSize))
    (hrom : ¬(programStart ≤ a ∧ a < programStart + rom.length)) : resetByte fontBase rom a = 0 := by
  rw [resetByte, if_neg hrom, if_neg hfont]

end

end Sys2Proof.Machine
end

section
/-! What a step cannot depend on: the events already emitted, and the inputs an instruction does not ask for (10_state R34, R36). -/

namespace Sys2Proof.Machine

open Sys2Proof.Claims

/-- The state with its inputs changed by `g` and an older log in front of its log. -/
def State.recast (g : CycleInput → CycleInput) (older : List Event) (s : State) : State :=
  { s with input := g s.input, events := older ++ s.events }

section

variable (g : CycleInput → CycleInput) (older : List Event) (s : State)

theorem State.recast_emit (e : Event) : (s.recast g older).emit e = (s.emit e).recast g older := by
  simp [State.recast, State.emit]

theorem State.recast_skipIf (c : Bool) : (s.recast g older).skipIf c = (s.skipIf c).recast g older := by
  cases c <;> rfl

theorem State.recast_callTo (a : Word) : (s.recast g older).callTo a = (s.callTo a).recast g older := by
  unfold State.callTo
  rw [apply_ite (State.recast g older)]
  rfl

theorem State.recast_returned : (s.recast g older).returned = s.returned.recast g older := by
  cases h : s.stack.getLast? with
  | some a =>
    simp only [State.returned, h, State.recast]
    rfl
  | none =>
    have hemit := s.recast_emit g older (.emptyReturn s.pc0)
    have hrecast : (s.recast g older).stack.getLast? = none := h
    simp only [State.returned, h, hrecast]
    exact hemit

theorem State.recast_addToI (x : RegIdx) : (s.recast g older).addToI x = (s.addToI x).recast g older := by
  unfold State.addToI
  rw [apply_ite (State.recast g older)]
  rfl

theorem State.recast_bumpI (n : Nat) : (s.recast g older).bumpI n = (s.bumpI n).recast g older := by
  unfold State.bumpI
  rw [apply_ite (State.recast g older)]
  rfl

theorem State.recast_loadRegs (base : Nat) :
    ∀ n, (s.recast g older).loadRegs base n = (s.loadRegs base n).recast g older
  | 0 => rfl
  | n + 1 => congrArg (State.setReg · (Fin.ofNat 16 n) (s.mem.read (base + n))) (State.recast_loadRegs base n)

theorem State.recast_checked (len : Nat) (e : State) :
    (s.recast g older).checked len (e.recast g older) = (s.checked len e).recast g older := by
  unfold State.checked
  rw [apply_ite (State.recast g older)]
  rfl

theorem State.recast_tickDelay : (s.recast g older).tickDelay = s.tickDelay.recast g older := by
  unfold State.tickDelay
  rw [apply_ite (State.recast g older)]
  rfl

theorem State.recast_tickSound : (s.recast g older).tickSound = s.tickSound.recast g older := by
  simp only [State.tickSound, apply_ite (State.recast g older), ← State.recast_emit]
  rfl

theorem recast_tick : tick (s.recast g older) = (tick s).recast g older := by
  simp only [tick, apply_ite (State.recast g older), ← State.recast_tickSound, ← State.recast_tickDelay]
  rfl

variable {g} {s} in
theorem State.recast_awaitKey (h : (g s.input).key = s.input.key) (x : RegIdx) :
    (s.recast g older).awaitKey x = (s.awaitKey x).recast g older := by
  have hkey : (s.recast g older).input.key = s.input.key := h
  simp only [State.awaitKey, hkey]
  cases s.input.key <;> rfl

variable {g} {s} in
theorem State.recast_keyIs (h : (g s.input).key = s.input.key) (x : RegIdx) :
    (s.recast g older).keyIs x = s.keyIs x := by
  have hkey : (s.recast g older).input.key = s.input.key := h
  simp only [State.keyIs, hkey]
  rfl

variable {g} {s} in
/-- An instruction run under other inputs and an older log does the same, where it asks for no input that was changed. -/
theorem exec_recast {i : Instr} (hkey : readsKey i = true → (g s.input).key = s.input.key)
    (hdraw : readsDraw i = true → (g s.input).draw = s.input.draw) :
    exec i (s.recast g older) = mapNext (State.recast g older) (exec i s) := by
  cases i with
  | sys nnn => exact congrArg Host.Outcome.next (s.recast_emit g older _)
  | ret => exact congrArg Host.Outcome.next (s.recast_returned g older)
  | call nnn => exact congrArg Host.Outcome.next (s.recast_callTo g older _)
  | seImm | sneImm | seReg | sneReg => exact congrArg Host.Outcome.next (s.recast_skipIf g older _)
  | skp x =>
    simp only [exec, execSkp, State.recast_keyIs older (hkey rfl), State.recast_skipIf, mapNext]
  | sknp x =>
    simp only [exec, execSknp, State.recast_keyIs older (hkey rfl), State.recast_skipIf, mapNext]
  | ldVxK x => exact congrArg Host.Outcome.next (State.recast_awaitKey older (hkey rfl) x)
  | rnd x nn =>
    have hsame : (s.recast g older).input.draw = s.input.draw := hdraw rfl
    simp only [exec, execRnd, hsame]
    rfl
  | addIVx x => exact congrArg Host.Outcome.next (s.recast_addToI g older x)
  | drw x y n => exact congrArg Host.Outcome.next (s.recast_checked g older n.toNat (s.drawSprite x y n.toNat))
  | ldBVx x => exact congrArg Host.Outcome.next (s.recast_checked g older 3 (s.storeAtI (bcdDigits (s.reg x))))
  | ldMemVx x =>
    have hbump := (s.storeAtI (s.regBytes (x.val + 1))).recast_bumpI g older (x.val + 1)
    simp only [exec, execLdMemVx, mapNext, ← State.recast_checked, ← hbump]
    rfl
  | ldVxMem x =>
    simp only [exec, execLdVxMem, mapNext, ← State.recast_checked, ← State.recast_bumpI, ← State.recast_loadRegs]
    rfl
  | _ => rfl

end

/-! ### A whole step under an older log -/

section

variable (older : List Event) (s : State)

theorem runBytes_recast (bytes : List Byte) (op : Word) :
    runBytes bytes op (s.recast id older) = mapNext (State.recast id older) (runBytes bytes op s) := by
  unfold runBytes
  split
  · exact exec_recast older (fun _ => rfl) (fun _ => rfl)
  · exact congrArg Host.Outcome.next (s.recast_emit id older _)

theorem cycle_recast : cycle (s.recast id older) = mapNext (State.recast id older) (cycle s) := by
  have hrun := runBytes_recast older (s.setPc (s.pc + 2)) s.fetchBytes s.fetchWord
  unfold cycle
  rw [apply_ite (mapNext _), apply_ite (mapNext _), ← hrun]
  rfl

theorem State.recast_constructed (rom : List Byte) (config : Config) :
    (s.recast id older).constructed rom config = (s.constructed rom config).recast id older := by
  simp only [State.constructed, State.recast, id]

theorem resetOp_recast (rom : List Byte) (config : Config) :
    resetOp rom config (s.recast id older) = mapNext (State.recast id older) (resetOp rom config s) := by
  rw [resetOp, resetOp, apply_ite (mapNext _), apply_ite (mapNext _), State.recast_constructed]
  simp only [mapNext]

theorem step_recast : step (s.recast id older) = mapNext (State.recast id older) (step s) := by
  have hop : (s.recast id older).nextOp = s.nextOp := rfl
  simp only [step, hostStep, hop]
  cases s.nextOp with
  | cycle input => exact cycle_recast older (s.beginCycle input)
  | tick => exact congrArg Host.Outcome.next (recast_tick id older s.takeOp)
  | clearDirty => rfl
  | reset rom config => exact resetOp_recast older s.takeOp rom config

end

end Sys2Proof.Machine
end

section
/-! The obligations of the state (10_state). -/

namespace Sys2Proof.Proofs

open Sys2Proof.Machine Sys2Proof.Claims

/-- Settles O10: under a latch CYCLE and TICK leave the state as it was but for the operation taken, and CLEAR_DIRTY works as ever. -/
theorem faultedMachineIsFrozen : Obligations.FaultedMachineIsFrozen := by
  intro s hfault hnot
  obtain ⟨input, hop, hstep⟩ | ⟨hop, hstep⟩ | ⟨hop, hstep⟩ | ⟨rom, config, hop, -⟩ := step_cases s
  · have hframe := (s.unchangedBut_beginCycle input).mono (List.Subset.refl _) (List.subset_cons_self .dirty _)
    exact ⟨_, hstep.trans (cycle_of_faulted hfault), ⟨rfl, rfl⟩, hframe, by simp [clearDirtyNext, hop]⟩
  · rw [tick_of_faulted (s := s.takeOp) hfault] at hstep
    exact ⟨_, hstep, ⟨rfl, rfl⟩, s.unchangedBut_takeOp.mono (by simp) (by simp), by simp [clearDirtyNext, hop]⟩
  · have hframe := s.unchangedBut_takeOp.trans (unchangedBut_clearDirty _)
    exact ⟨_, hstep, ⟨rfl, rfl⟩, hframe.mono (by simp) (by simp), by simp [clearDirtyNext, hop, clearDirty]⟩
  · simp [resetNext, hop] at hnot

/-- Settles O12: the frame of the instruction gives all but the bytes of a store, and these lie in the range its rule names. -/
theorem everyInstructionWritesOnlyWhatItsRuleNames : Obligations.EveryInstructionWritesOnlyWhatItsRuleNames := by
  intro i s t hwf h
  have hframe := exec_frame h
  refine ⟨hframe.mono (List.Subset.refl _) (partsTouched_subset i), fun a ha => ?_⟩
  by_cases hst : storeLength i = 0
  · exact hframe.part (mem_not_mem_partsTouched hst) a
  · obtain hmem | ⟨bs, hlen, hfit, hmem⟩ := exec_store hst h
    · rw [hmem]
    · rw [hmem, Memory.read_writeBytes hwf _ _ hfit, if_neg (hlen ▸ ha)]

/-- Settles O13: other inputs recast the state, and an instruction that does not ask for them runs alike. -/
theorem inputsReachOnlyTheirInstructions : Obligations.InputsReachOnlyTheirInstructions := by
  refine fun i s key draw => ⟨fun hkey => ?_, fun hdraw => ?_⟩
  · exact exec_recast (g := fun _ => { s.input with key := key }) [] (by simp [hkey]) (fun _ => rfl)
  · exact exec_recast (g := fun _ => { s.input with draw := draw }) [] (fun _ => rfl) (by simp [hdraw])

/-- Settles O14: an older log recasts the state, and every operation runs alike. -/
theorem eventsNeverInfluenceAStep : Obligations.EventsNeverInfluenceAStep :=
  fun s older => step_recast older s

/-- Settles O18: a step that is no RESET writes the display only through an instruction whose frame names it. -/
theorem onlyClsDrwAndResetChangeTheDisplay : Obligations.OnlyClsDrwAndResetChangeTheDisplay := by
  intro s t h hne
  cases hreset : resetNext s
  case true => exact .inl rfl
  case false =>
    obtain ⟨-, rfl⟩ | ⟨i, input, hrun, he⟩ | hquiet := step_cases_of_not_reset h hreset
    · exact absurd rfl hne
    · obtain rfl | ⟨x, y, n, rfl⟩ := disp_mem_partsTouched (not_not.1 fun hd => hne ((exec_frame he).part hd))
      · exact .inr (.inl hrun)
      · exact .inr (.inr ⟨x, y, n, hrun⟩)
    · exact absurd (hquiet.part (p := .disp) (by simp)) hne

/-- Settles O19: a step that is no RESET writes the stack only through CALL or RET, and the state they run in has pc past them. -/
theorem onlyCallPushesAndOnlyRetPops : Obligations.OnlyCallPushesAndOnlyRetPops := by
  refine fun s t h => ⟨fun hreset => ?_, fun hnot => ?_⟩
  · obtain ⟨rom, config, rfl⟩ := constructed_of_resetNext h hreset
    exact State.constructed_stack _ _ _
  · obtain ⟨-, rfl⟩ | ⟨i, input, hrun, he⟩ | hquiet := step_cases_of_not_reset h hnot
    · exact .inl rfl
    · by_cases hst : Part.stack ∈ partsTouched i
      · obtain ⟨nnn, rfl⟩ | rfl := stack_mem_partsTouched hst
        · cases he
          exact ((s.fetched input).stack_callTo _).imp id fun hpush => .inl ⟨nnn, hrun, hpush⟩
        · cases he
          exact (s.fetched input).stack_returned.imp id fun ⟨a, hpop, hpc⟩ => .inr ⟨a, hrun, hpop, hpc⟩
      · exact .inl ((exec_frame he).part hst)
    · exact .inl (hquiet.part (p := .stack) (by simp))

/-- Settles O20: a step that is no RESET and no CLEAR_DIRTY writes the flag only through CLS or DRW, which never lower it. -/
theorem dirtyFlagIsRaisedByDrawingAndLoweredByTheHost : Obligations.DirtyFlagIsRaisedByDrawingAndLoweredByTheHost := by
  intro s t h
  cases hreset : resetNext s
  case true =>
    obtain ⟨rom, config, rfl⟩ := constructed_of_resetNext h hreset
    exact ⟨fun _ hraised => absurd hraised (by simp), fun _ _ => .inr rfl⟩
  case false =>
    obtain ⟨hop, rfl⟩ | ⟨i, input, hrun, he⟩ | hquiet := step_cases_of_not_reset h hreset
    · exact ⟨fun _ hraised => absurd hraised (by simp [clearDirty]), fun _ _ => .inl hop⟩
    · refine ⟨fun hlow hraised => ?_, fun hraised hlow => ?_⟩
      · have hd : Part.dirty ∈ partsTouched i := by
          by_contra hd
          have hsame : t.dirty = s.dirty := (exec_frame he).part hd
          simp [hsame, hlow] at hraised
        obtain rfl | ⟨x, y, n, rfl⟩ := dirty_mem_partsTouched hd
        · exact .inl hrun
        · exact .inr ⟨x, y, n, hrun⟩
      · have hkept := exec_keeps_dirty he hraised
        simp [hlow] at hkept
    · have hsame : t.dirty = s.dirty := hquiet.part (p := .dirty) (by simp)
      exact ⟨fun hlow hraised => by simp [hsame, hlow] at hraised, fun hraised hlow => by simp [hsame, hraised] at hlow⟩

/-- Settles O25: the fields are those of the machine RESET constructs, and its memory reads as 70_reset R201 lays it out. -/
theorem resetConstructsTheMachine : Obligations.ResetConstructsTheMachine := by
  intro s rom config hop hlegal hlen
  refine ⟨s.takeOp.constructed rom config, step_reset_of_legal hop hlegal hlen, ?_⟩
  have hbase : config.fontBase + 80 ≤ 512 := hlegal.1
  have hend : 512 + rom.length ≤ 4096 := Nat.add_le_of_le_sub' (by decide) hlen
  have hread : ∀ a, a < 4096 → (s.takeOp.constructed rom config).mem.read a = resetByte config.fontBase rom a :=
    fun a ha => (congrArg (Memory.read · a) (State.constructed_mem _ _ _)).trans (Memory.read_ofReset _ _ ha)
  refine ⟨by simp, by simp, by simp, by simp, by simp, by simp, ?_, ?_, by simp, by simp, by simp, ?_, by simp, by simp, ?_,
    fun k hk => ?_, fun k hk => ?_, fun a ha hfont hrom => ?_⟩
  · exact State.constructed_disp _ _ _ ▸ Grid.shaped_blank _ _
  · simp [Grid.pixel_blank]
  · simp [opTaken]
  · exact State.constructed_mem _ _ _ ▸ Memory.wf_ofReset _ rom
  · have hk80 : k < 80 := hk
    exact (hread _ (by omega)).trans (resetByte_of_font hbase hk)
  · exact (hread _ (by omega)).trans (resetByte_of_rom hk)
  · exact (hread a ha).trans (resetByte_of_neither hfont hrom)

/-- Settles O39: the flag is the carry of the operands as they were before either write. -/
theorem addWritesTheSumThenTheCarry : Obligations.AddWritesTheSumThenTheCarry := by
  intro x y s
  refine ⟨_, rfl, ?_, fun hx => ?_, s.unchangedBut_setResultFlag x _ _⟩
  · simp [State.vf_setResultFlag, carryOf]
  · rw [State.reg_setResultFlag_of_ne _ hx, BitVec.toNat_add]

/-- Settles O40: the flag is no-borrow of the operands as they were before either write. -/
theorem subtractionsWriteTheDifferenceThenNoBorrow : Obligations.SubtractionsWriteTheDifferenceThenNoBorrow := by
  refine fun x y s => ⟨⟨_, rfl, ?_, fun hx => ?_, s.unchangedBut_setResultFlag x _ _⟩,
    ⟨_, rfl, ?_, fun hx => ?_, s.unchangedBut_setResultFlag x _ _⟩⟩
  · simp [State.vf_setResultFlag, noBorrow]
  · rw [State.reg_setResultFlag_of_ne _ hx, toNat_sub_byte]
  · simp [State.vf_setResultFlag, noBorrow]
  · rw [State.reg_setResultFlag_of_ne _ hx, toNat_sub_byte]

/-- Settles O16: a RESET within its limits constructs a machine that meets the invariant, and State.reset is one such machine. -/
theorem resetStateMeetsTheInvariant : Obligations.ResetStateMeetsTheInvariant := by
  refine ⟨?_, fun s rom config hop hlegal hlen => ?_⟩
  · obtain ⟨hlegal, hreset⟩ := resetOp_next ((step_reset rfl).symm.trans resetStateIsTheEmptyImageReset)
    rw [hreset]
    exact State.inv_constructed _ [] hlegal
  · exact ⟨_, step_reset_of_legal hop hlegal hlen, s.takeOp.inv_constructed rom hlegal⟩

/-- Settles O24: in every state CLEAR_DIRTY is the operation taken and the flag lowered. -/
theorem clearDirtyLowersTheDirtyFlagOnly : Obligations.ClearDirtyLowersTheDirtyFlagOnly := by
  intro s hop
  have hframe := s.unchangedBut_takeOp.trans (unchangedBut_clearDirty s.takeOp)
  exact ⟨_, step_clearDirty hop, ⟨rfl, rfl⟩, rfl, hframe.mono (by simp) (by simp)⟩

/-- Settles O31: a stack without room is full, and CALL then raises the fault and writes nothing else. -/
theorem callOnAFullStackFaults : Obligations.CallOnAFullStackFaults := by
  intro nnn s hfull
  exact ⟨_, congrArg Host.Outcome.next (s.callTo_of_full (s.stackFull_iff.2 hfull) _), rfl, rfl, s.unchangedBut_raise _⟩

end Sys2Proof.Proofs
end

section
/-! What memory an instruction names at I, what it stores there, and which steps leave memory as it was (20_memory). -/

namespace Sys2Proof.Machine

open Sys2Proof.Claims

/-! ### Which instruction a step runs -/

theorem nextOp_of_cycleNext {s : State} (h : cycleNext s = true) : ∃ input, s.nextOp = .cycle input := by
  unfold cycleNext at h
  split at h
  · exact ⟨_, ‹_›⟩
  · cases h

theorem step_cycle {s : State} {input : CycleInput} (h : s.nextOp = .cycle input) : step s = cycle (s.beginCycle input) := by
  rw [step, hostStep, h]

/-- A fetch inside memory whose bytes decode runs what they decode to. -/
theorem cycle_of_decode {s : State} {i : Instr} {rest : List Byte} (hrun : s.running) (hpc : s.pc.toNat + 1 < memSize)
    (hd : decode s.fetchBytes = .ok (i, rest)) : cycle s = exec i (s.setPc (s.pc + 2)) := by
  have hlatch : ¬s.fault.isSome = true := by simp [show s.fault = none from hrun]
  have hok : s.fetchOk = true := decide_eq_true hpc
  rw [cycle, if_neg hlatch, if_pos hok, runBytes, hd]

theorem step_of_runsNext {s : State} {i : Instr} {input : CycleInput} (h : runsNext s i) (hop : s.nextOp = .cycle input) :
    step s = exec i (s.fetched input) := by
  obtain ⟨-, hrun, hpc, hd⟩ := h
  exact (step_cycle hop).trans (cycle_of_decode (s := s.beginCycle input) hrun hpc hd)

/-! ### The fault of an access range -/

/-- A fault of the instruction pc stands at leaves pc there. -/
theorem State.unchangedBut_raise_at_pc (s : State) {f : LatchedFault} (h : f.pc0 = s.pc) : s.unchangedBut (s.raise f) [] [.fault] := by
  refine ⟨fun _ _ => rfl, fun p hp => ?_⟩
  by_cases hpc : p = .pc
  · subst hpc
    exact h
  · exact (s.unchangedBut_raise f).part (by simpa [hpc] using hp)

theorem cycle_of_fetch_beyond {s : State} (hrun : s.running) (hpc : memSize ≤ s.pc.toNat + 1) :
    cycle s = .next (s.raise s.fetchFault) := by
  have hlatch : ¬s.fault.isSome = true := by simp [show s.fault = none from hrun]
  have hbad : ¬s.fetchOk = true := by simpa [State.fetchOk] using hpc
  rw [cycle, if_neg hlatch, if_neg hbad]

/-- An instruction that names bytes at I checks their whole range before all else (20_memory R51). -/
theorem exec_eq_checked {i : Instr} (h : accessLength i ≠ 0) (s : State) :
    ∃ effect, exec i s = .next (s.checked (accessLength i) effect) := by
  cases i with
  | drw | ldBVx | ldMemVx | ldVxMem => exact ⟨_, rfl⟩
  | _ => exact absurd rfl h

theorem State.checked_of_fits {s : State} {len : Nat} (h : s.i.toNat + len ≤ memSize) (effect : State) :
    s.checked len effect = effect :=
  if_pos ((rangeOk_iff _ _).2 (.inr h))

theorem State.checked_of_beyond {s : State} {len : Nat} (hlen : len ≠ 0) (h : memSize < s.i.toNat + len) (effect : State) :
    s.checked len effect = s.raise (.memRange s.pc0 (max s.i.toNat memSize)) :=
  if_neg (by rw [rangeOk_iff]; omega)

/-! ### The bytes of a store -/

/-- What LD [I], Vx or LD B, Vx stores at I, in ascending order (45_memory_index R150, R153). -/
def storedBytes (i : Instr) (s : State) : List Byte := (List.range (storeLength i)).map fun k => storedByte s k i

@[simp] theorem length_storedBytes (i : Instr) (s : State) : (storedBytes i s).length = storeLength i := by
  simp [storedBytes]

theorem getD_storedBytes {i : Instr} {k : Nat} (h : k < storeLength i) (s : State) : (storedBytes i s).getD k 0 = storedByte s k i := by
  simp [storedBytes, h]

/-- A store inside memory writes its bytes at I, and pc stays past the instruction. -/
theorem exec_of_store {i : Instr} {s t : State} (hst : storeLength i ≠ 0) (hfit : s.i.toNat + storeLength i ≤ memSize)
    (h : exec i s = .next t) : t.pc = s.pc ∧ t.mem = s.mem.writeBytes s.i.toNat (storedBytes i s) := by
  cases i with
  | ldBVx x =>
    cases h
    rw [State.checked_of_fits (len := 3) hfit]
    exact ⟨rfl, rfl⟩
  | ldMemVx x =>
    cases h
    rw [State.checked_of_fits (len := x.val + 1) hfit]
    have hbump := (s.storeAtI (s.regBytes (x.val + 1))).guarded_bumpI (x.val + 1)
    exact ⟨congrArg Guarded.pc hbump, congrArg Guarded.mem hbump⟩
  | _ => exact absurd rfl hst

theorem read_exec_of_store {i : Instr} {s t : State} (hst : storeLength i ≠ 0) (hwf : s.mem.wf)
    (hfit : s.i.toNat + storeLength i ≤ memSize) (h : exec i s = .next t) (a : Nat) : t.mem.read a = byteAfterStore i s a := by
  have hlen : s.i.toNat + (storedBytes i s).length ≤ memSize := by rwa [length_storedBytes]
  rw [(exec_of_store hst hfit h).2, Memory.read_writeBytes hwf _ _ hlen, length_storedBytes, byteAfterStore]
  split
  · next hin => exact getD_storedBytes (by omega) s
  · rfl

/-! ### What leaves memory the same list of cells -/

section

variable (s : State)

theorem State.mem_fetched (input : CycleInput) : (s.fetched input).mem = s.mem := rfl

theorem State.mem_skipIf (c : Bool) : (s.skipIf c).mem = s.mem := by
  cases c <;> rfl

theorem State.mem_awaitKey (x : RegIdx) : (s.awaitKey x).mem = s.mem := by
  unfold State.awaitKey
  split <;> rfl

theorem State.mem_callTo (a : Word) : (s.callTo a).mem = s.mem := by
  unfold State.callTo
  split <;> rfl

theorem State.mem_returned : s.returned.mem = s.mem := by
  unfold State.returned
  split <;> rfl

variable {s} in
theorem State.mem_checked {effect : State} (h : effect.mem = s.mem) (len : Nat) : (s.checked len effect).mem = s.mem := by
  obtain ⟨-, hc⟩ | ⟨-, hc⟩ := s.checked_cases len effect <;> rw [hc]
  · exact h
  · rfl

end

/-- The frame of an instruction compares memory by its reads; an instruction that does not store leaves the very list of cells. -/
theorem exec_next_mem {i : Instr} (hst : storeLength i = 0) (s : State) : ∃ t, exec i s = .next t ∧ t.mem = s.mem := by
  cases i with
  | sys | cls | jp | jpV0 | ldImm | addImm | ldReg | orReg | andReg | xorReg | addReg | subReg | shrReg | subnReg | shlReg | ldI | rnd
  | ldVxDt | ldDtVx | ldStVx | ldFVx => exact ⟨_, rfl, rfl⟩
  | seImm | sneImm | seReg | sneReg | skp | sknp => exact ⟨_, rfl, s.mem_skipIf _⟩
  | ldVxK x => exact ⟨_, rfl, s.mem_awaitKey x⟩
  | call nnn => exact ⟨_, rfl, s.mem_callTo _⟩
  | ret => exact ⟨_, rfl, s.mem_returned⟩
  | addIVx x => exact ⟨_, rfl, congrArg Guarded.mem (s.guarded_addToI x)⟩
  | drw x y n => exact ⟨_, rfl, State.mem_checked (s := s) (effect := s.drawSprite x y n.toNat) rfl _⟩
  | ldVxMem x =>
    have hload := (State.guarded_bumpI _ (x.val + 1)).trans (s.guarded_loadRegs s.i.toNat (x.val + 1))
    exact ⟨_, rfl, State.mem_checked (congrArg Guarded.mem hload) _⟩
  | ldBVx | ldMemVx => exact absurd hst (Nat.succ_ne_zero _)

theorem exec_mem_of_no_store {i : Instr} {s t : State} (hst : storeLength i = 0) (h : exec i s = .next t) : t.mem = s.mem := by
  obtain ⟨u, hu, hmem⟩ := exec_next_mem hst s
  cases hu.symm.trans h
  exact hmem

theorem eq_store_of_storeLength {i : Instr} (h : storeLength i ≠ 0) : (∃ x, i = .ldBVx x) ∨ ∃ x, i = .ldMemVx x := by
  cases i with
  | ldBVx x => exact .inl ⟨x, rfl⟩
  | ldMemVx x => exact .inr ⟨x, rfl⟩
  | _ => exact absurd rfl h

/-- A step that is no RESET leaves memory as it was, or it runs an instruction. -/
theorem step_mem_or_exec {s t : State} (h : step s = .next t) (hnot : resetNext s = false) :
    t.mem = s.mem ∨ ∃ i input, runsNext s i ∧ exec i (s.fetched input) = .next t := by
  obtain ⟨input, hop, hstep⟩ | ⟨-, hstep⟩ | ⟨-, hstep⟩ | ⟨rom, config, hop, -⟩ := step_cases s
  · have hcycle := hstep.symm.trans h
    obtain ⟨-, hc⟩ | ⟨-, -, hc⟩ | ⟨i, hrun, hpc, hd, hc⟩ | ⟨-, -, -, hc⟩ := cycle_cases (s.beginCycle input)
    · cases hc.symm.trans hcycle
      exact .inl rfl
    · cases hc.symm.trans hcycle
      exact .inl rfl
    · exact .inr ⟨i, input, runsNext_of_decodeWord hop hrun hpc hd, hc.symm.trans hcycle⟩
    · cases hc.symm.trans hcycle
      exact .inl rfl
  · cases hstep.symm.trans h
    exact .inl (congrArg Guarded.mem (guarded_tick s.takeOp))
  · cases hstep.symm.trans h
    exact .inl rfl
  · simp [resetNext, hop] at hnot

end Sys2Proof.Machine
end

section
/-! The obligations of memory (20_memory). -/

namespace Sys2Proof.Proofs

open Sys2Proof.Machine Sys2Proof.Claims

/-- Settles O6: the state named in full is the one of `State.fetched`. -/
theorem stepRunsTheDecodedInstruction : Obligations.StepRunsTheDecodedInstruction :=
  fun _ _ _ hrun hop => step_of_runsNext hrun hop

/-- Settles O9: the CYCLE begins and raises the fault of the fetch, whose pc0 is pc itself. -/
theorem fetchBeyondMemoryFaults : Obligations.FetchBeyondMemoryFaults := by
  intro s hcycle hrun hpc
  obtain ⟨input, hop⟩ := nextOp_of_cycleNext hcycle
  have hstep := (step_cycle hop).trans (cycle_of_fetch_beyond (s := s.beginCycle input) hrun hpc)
  have hframe := (s.unchangedBut_beginCycle input).trans ((s.beginCycle input).unchangedBut_raise_at_pc (f := s.fetchFault) rfl)
  exact ⟨_, hstep, ⟨rfl, rfl⟩, rfl, hframe.mono (by simp) (by simp)⟩

/-- Settles O46: each of the four forms is a checked effect, and the check fails. -/
theorem memoryAccessBeyond4095Faults : Obligations.MemoryAccessBeyond4095Faults := by
  intro i s hlen hbeyond
  obtain ⟨effect, hexec⟩ := exec_eq_checked hlen s
  rw [State.checked_of_beyond hlen hbeyond] at hexec
  exact ⟨_, hexec, rfl, rfl, s.unchangedBut_raise _⟩

/-- Settles O21: a step that is no RESET writes memory only through an instruction, and of these only the two that store. -/
theorem onlyStoresAndResetChangeMemory : Obligations.OnlyStoresAndResetChangeMemory := by
  intro s t h hne
  cases hreset : resetNext s
  case true => exact .inl rfl
  case false =>
    obtain hsame | ⟨i, input, hrun, he⟩ := step_mem_or_exec h hreset
    · exact absurd hsame hne
    · have hst : storeLength i ≠ 0 := fun hst => hne ((exec_mem_of_no_store hst he).trans (s.mem_fetched input))
      obtain ⟨x, rfl⟩ | ⟨x, rfl⟩ := eq_store_of_storeLength hst
      · exact .inr (.inl ⟨x, hrun⟩)
      · exact .inr (.inr ⟨x, hrun⟩)

/-- Settles O52: the fetch reads the two bytes at pc, which the store left in place, from the memory after the store. -/
theorem storedBytesAreFetchedNext : Obligations.StoredBytesAreFetchedNext := by
  intro i s t hst hwf hfit h
  have hread := read_exec_of_store hst hwf hfit h
  have hpc : t.pc = s.pc := (exec_of_store hst hfit h).1
  rw [State.fetchBytes_eq, State.fetchWord, hpc, hread, hread]
  exact ⟨rfl, rfl⟩

end Sys2Proof.Proofs
end

section
/-! The decoder and the encoder are inverse to each other, and what the rows of the opcode map say of a word (30_encoding R72 to R79). -/

namespace Sys2Proof

open Sys2Proof.Claims

/-! ### Decoding an encoded instruction -/

theorem encodeNNN_inj {a : BitVec 4} {m n : BitVec 12} : encodeNNN a m = encodeNNN a n ↔ m = n := by
  refine ⟨fun h => ?_, congrArg _⟩
  rw [← fieldNNN_encodeNNN a m, h, fieldNNN_encodeNNN]

/-- The words `wellFormed` keeps from SYS are those of CLS and RET (30_encoding R76). -/
theorem wellFormed_sys_iff (nnn : BitVec 12) :
    (Instr.sys nnn).wellFormed = true ↔ encodeNNN 0x0 nnn ≠ 0x00E0#16 ∧ encodeNNN 0x0 nnn ≠ 0x00EE#16 := by
  have hcls : encodeNNN 0x0 0x0E0 = 0x00E0#16 := rfl
  have hret : encodeNNN 0x0 0x0EE = 0x00EE#16 := rfl
  rw [← hcls, ← hret, ne_eq, ne_eq, encodeNNN_inj, encodeNNN_inj]
  simp [Instr.wellFormed]

theorem decodeGroup0_of_ne {op : Word} (hcls : op ≠ 0x00E0#16) (hret : op ≠ 0x00EE#16) : decodeGroup0 op = .sys (fieldNNN op) := by
  rw [decodeGroup0, if_neg hcls, if_neg hret]

/-- Decoding undoes encoding: the first nibble, and the low nibble or the low byte, select the row, and the fields come back. -/
theorem decodeWord_encodeWord {i : Instr} (h : i.wellFormed = true) : decodeWord (encodeWord i) = some i := by
  cases i with
  | sys nnn =>
    obtain ⟨hcls, hret⟩ := (wellFormed_sys_iff nnn).1 h
    rw [encodeWord, decodeWord, fieldOp4_encodeNNN, decodeGroup0_of_ne hcls hret, fieldNNN_encodeNNN]
    rfl
  | cls | ret => rfl
  | jp | call | ldI | jpV0 =>
    rw [encodeWord, decodeWord, fieldOp4_encodeNNN, fieldNNN_encodeNNN]
    rfl
  | seImm | sneImm | ldImm | addImm | rnd | skp | sknp | ldVxDt | ldVxK | ldDtVx | ldStVx | addIVx | ldFVx | ldBVx | ldMemVx | ldVxMem =>
    rw [encodeWord, decodeWord, fieldOp4_encodeXNN, fieldX_encodeXNN, fieldNN_encodeXNN]
    rfl
  | seReg | ldReg | orReg | andReg | xorReg | addReg | subReg | shrReg | subnReg | shlReg | sneReg | drw =>
    rw [encodeWord, decodeWord, fieldOp4_encodeXYN, fieldX_encodeXYN, fieldY_encodeXYN, fieldN_encodeXYN]
    rfl

/-! ### Encoding a decoded word -/

theorem encodeWord_decodeGroup0 {op : Word} (h : encodeNNN 0x0 (fieldNNN op) = op) :
    encodeWord (decodeGroup0 op) = op ∧ (decodeGroup0 op).wellFormed = true := by
  by_cases hcls : op = 0x00E0#16
  · subst hcls
    exact ⟨rfl, rfl⟩
  · by_cases hret : op = 0x00EE#16
    · subst hret
      exact ⟨rfl, rfl⟩
    · rw [decodeGroup0_of_ne hcls hret, wellFormed_sys_iff, h]
      exact ⟨h, hcls, hret⟩

theorem encodeWord_of_decodeGroup8 {x y : RegIdx} {n : BitVec 4} {i : Instr} (h : decodeGroup8 x y n = some i) :
    encodeWord i = encodeXYN 0x8 x y n ∧ i.wellFormed = true := by
  unfold decodeGroup8 at h
  split at h <;> cases h <;> exact ⟨rfl, rfl⟩

theorem encodeWord_of_decodeGroupE {x : RegIdx} {nn : Byte} {i : Instr} (h : decodeGroupE x nn = some i) :
    encodeWord i = encodeXNN 0xE x nn ∧ i.wellFormed = true := by
  unfold decodeGroupE at h
  split at h <;> cases h <;> exact ⟨rfl, rfl⟩

theorem encodeWord_of_decodeGroupF {x : RegIdx} {nn : Byte} {i : Instr} (h : decodeGroupF x nn = some i) :
    encodeWord i = encodeXNN 0xF x nn ∧ i.wellFormed = true := by
  unfold decodeGroupF at h
  split at h <;> cases h <;> exact ⟨rfl, rfl⟩

/-- Encoding undoes decoding: the word is put together again from the fields of the format of its first nibble. -/
theorem encodeWord_of_decodeWord {op : Word} {i : Instr} (h : decodeWord op = some i) : encodeWord i = op ∧ i.wellFormed = true := by
  have hNNN := encodeNNN_fields op
  have hXNN := encodeXNN_fields op
  have hXYN := encodeXYN_fields op
  unfold decodeWord at h
  generalize fieldOp4 op = a at h hNNN hXNN hXYN
  split at h
  case h_1 =>
    cases h
    exact encodeWord_decodeGroup0 hNNN
  case h_2 | h_3 | h_11 | h_12 =>
    cases h
    exact ⟨hNNN, rfl⟩
  case h_4 | h_5 | h_7 | h_8 | h_13 =>
    cases h
    exact ⟨hXNN, rfl⟩
  case h_6 | h_10 =>
    split at h
    · next hn =>
      cases h
      rw [hn] at hXYN
      exact ⟨hXYN, rfl⟩
    · cases h
  case h_9 => exact (encodeWord_of_decodeGroup8 h).imp_left (·.trans hXYN)
  case h_14 =>
    cases h
    exact ⟨hXYN, rfl⟩
  case h_15 => exact (encodeWord_of_decodeGroupE h).imp_left (·.trans hXNN)
  case h_16 => exact (encodeWord_of_decodeGroupF h).imp_left (·.trans hXNN)
  case h_17 => cases h

/-! ### The rows of the opcode map -/

section

open Laws.MatchesRow

/-- The word of an instruction matches the instruction's own row: the laws of Laws/PerInstr.lean, one for each constructor in order. -/
theorem matchesRow_encodeWord (i : Instr) : matchesRow (encodeWord i) i := by
  cases i
  exacts [sys _, cls, ret, jp _, call _, seImm _ _, sneImm _ _, seReg _ _, ldImm _ _, addImm _ _, ldReg _ _, orReg _ _, andReg _ _,
    xorReg _ _, addReg _ _, subReg _ _, shrReg _ _, subnReg _ _, shlReg _ _, sneReg _ _, ldI _, jpV0 _, rnd _ _, drw _ _ _, skp _, sknp _,
    ldVxDt _, ldVxK _, ldDtVx _, ldStVx _, addIVx _, ldFVx _, ldBVx _, ldMemVx _, ldVxMem _]

end

section

variable {op w : Word}

/-- The mask 0xF000 fixes the first nibble. -/
theorem fieldOp4_of_mask (h : op &&& 0xF000#16 = w &&& 0xF000#16) : fieldOp4 op = fieldOp4 w := by
  rw [← encodeNNN_fields op, ← encodeNNN_fields w, encodeNNN_mask, encodeNNN_mask] at h
  simpa using congrArg fieldOp4 h

/-- The mask 0xF00F fixes the first and the low nibble. -/
theorem fields_of_maskLowNibble (h : op &&& 0xF00F#16 = w &&& 0xF00F#16) : fieldOp4 op = fieldOp4 w ∧ fieldN op = fieldN w := by
  rw [← encodeXYN_fields op, ← encodeXYN_fields w, encodeXYN_maskLow, encodeXYN_maskLow] at h
  exact ⟨by simpa using congrArg fieldOp4 h, by simpa using congrArg fieldN h⟩

/-- The mask 0xF0FF fixes the first nibble and the low byte. -/
theorem fields_of_maskLowByte (h : op &&& 0xF0FF#16 = w &&& 0xF0FF#16) : fieldOp4 op = fieldOp4 w ∧ fieldNN op = fieldNN w := by
  rw [← encodeXNN_fields op, ← encodeXNN_fields w, encodeXNN_maskLow, encodeXNN_maskLow] at h
  exact ⟨by simpa using congrArg fieldOp4 h, by simpa using congrArg fieldNN h⟩

end

/-- A word of one of rows 2 to 35 decodes to an instruction of that row: under the mask of the row it is the word of `j`, so the decoder
reads the same first nibble and the same low nibble or low byte in both. -/
theorem decodeWord_of_matchesRow {op : Word} {j : Instr} (hj : isSys j = false) (h : matchesRow op j) :
    ∃ i, decodeWord op = some i ∧ opcodeRow i = opcodeRow j := by
  have hmask := h.trans (matchesRow_encodeWord j).symm
  cases j with
  | sys => cases hj
  | cls | ret =>
    cases BitVec.and_allOnes.symm.trans h
    exact ⟨_, rfl, rfl⟩
  | jp | call | ldI | jpV0 =>
    rw [decodeWord, fieldOp4_of_mask hmask, encodeWord, fieldOp4_encodeNNN]
    exact ⟨_, rfl, rfl⟩
  | seImm | sneImm | ldImm | addImm | rnd =>
    rw [decodeWord, fieldOp4_of_mask hmask, encodeWord, fieldOp4_encodeXNN]
    exact ⟨_, rfl, rfl⟩
  | drw =>
    rw [decodeWord, fieldOp4_of_mask hmask, encodeWord, fieldOp4_encodeXYN]
    exact ⟨_, rfl, rfl⟩
  | seReg | ldReg | orReg | andReg | xorReg | addReg | subReg | shrReg | subnReg | shlReg | sneReg =>
    obtain ⟨h4, hn⟩ := fields_of_maskLowNibble hmask
    rw [decodeWord, h4, hn, encodeWord, fieldOp4_encodeXYN, fieldN_encodeXYN]
    exact ⟨_, rfl, rfl⟩
  | skp | sknp | ldVxDt | ldVxK | ldDtVx | ldStVx | addIVx | ldFVx | ldBVx | ldMemVx | ldVxMem =>
    obtain ⟨h4, hnn⟩ := fields_of_maskLowByte hmask
    rw [decodeWord, h4, hnn, encodeWord, fieldOp4_encodeXNN, fieldNN_encodeXNN]
    exact ⟨_, rfl, rfl⟩

/-! ### The unknown words -/

theorem decodeGroup8_eq_none_iff (x y : RegIdx) (n : BitVec 4) :
    decodeGroup8 x y n = none ↔ [0x8#4, 0x9#4, 0xA#4, 0xB#4, 0xC#4, 0xD#4, 0xF#4].contains n = true := by
  obtain ⟨n⟩ := n
  fin_cases n <;> simp [decodeGroup8]

theorem decodeGroupE_eq_none_iff (x : RegIdx) (nn : Byte) :
    decodeGroupE x nn = none ↔ [0x9E#8, 0xA1#8].contains nn = false := by
  unfold decodeGroupE
  split <;> simp_all

theorem decodeGroupF_eq_none_iff (x : RegIdx) (nn : Byte) :
    decodeGroupF x nn = none ↔
      [0x07#8, 0x0A#8, 0x15#8, 0x18#8, 0x1E#8, 0x29#8, 0x33#8, 0x55#8, 0x65#8].contains nn = false := by
  unfold decodeGroupF
  split <;> simp_all

/-- The table of 30_encoding R78 past its first line, nibble by nibble: 8, E and F by their groups, 5 and 9 by the low nibble, and no other
first nibble has an unknown word. -/
theorem decodeWord_eq_none_iff (op : Word) : decodeWord op = none ↔ unknownBesideSys op = true := by
  unfold decodeWord unknownBesideSys
  generalize fieldOp4 op = a
  split
  case h_9 => simp [decodeGroup8_eq_none_iff]
  case h_15 => simp [decodeGroupE_eq_none_iff]
  case h_16 => simp [decodeGroupF_eq_none_iff]
  case h_17 =>
    exfalso
    revert a
    decide
  all_goals simp

theorem decodeWord_eq_sys_iff (op : Word) (nnn : BitVec 12) :
    decodeWord op = some (.sys nnn) ↔ (fieldOp4 op = 0 ∧ op ≠ 0x00E0#16 ∧ op ≠ 0x00EE#16 ∧ nnn = fieldNNN op) := by
  constructor
  · intro h
    obtain ⟨rfl, hwf⟩ := encodeWord_of_decodeWord h
    obtain ⟨hcls, hret⟩ := (wellFormed_sys_iff nnn).1 hwf
    exact ⟨fieldOp4_encodeNNN _ _, hcls, hret, (fieldNNN_encodeNNN _ _).symm⟩
  · rintro ⟨h4, hcls, hret, rfl⟩
    rw [decodeWord, h4, decodeGroup0_of_ne hcls hret]
    rfl

/-- The word the decoder reports is the one the two bytes make. -/
theorem decode_unknownOpcode {hi lo : Byte} {rest : List Byte} {op : Word} (h : decode (hi :: lo :: rest) = .error (.unknownOpcode op)) :
    op = wordOfBytes hi lo := by
  rw [decode] at h
  split at h <;> cases h
  rfl

end Sys2Proof
end

section
/-! A CYCLE at an unknown word (30_encoding R78). -/

namespace Sys2Proof.Machine

/-- A fetch inside memory whose bytes decode to nothing logs their word, and pc is past it. -/
theorem cycle_of_unknown {s : State} {op : Word} (hrun : s.running) (hpc : s.pc.toNat + 1 < memSize)
    (hd : decode s.fetchBytes = .error (.unknownOpcode op)) : cycle s = .next ((s.setPc (s.pc + 2)).unknownWord op) := by
  have hlatch : ¬s.fault.isSome = true := by simp [show s.fault = none from hrun]
  have hok : s.fetchOk = true := decide_eq_true hpc
  have hop : op = s.fetchWord := decode_unknownOpcode hd
  rw [cycle, if_neg hlatch, if_pos hok, runBytes, hd, hop]

/-- After the fetch pc0 is the address the instruction was fetched from. -/
theorem State.pc0_fetched (s : State) (input : CycleInput) : (s.fetched input).pc0 = s.pc := BitVec.add_sub_cancel s.pc 2

end Sys2Proof.Machine
end

section
/-! The obligations of the encoding (30_encoding). -/

namespace Sys2Proof.Proofs

open Sys2Proof.Machine Sys2Proof.Claims

/-- Settles O1: the two bytes make the word of the instruction again, and decoding undoes encoding on words. -/
theorem decodeOfEncodeIsTheInstruction : Obligations.DecodeOfEncodeIsTheInstruction := by
  intro i rest hwf
  refine (decode_bytes (encodeWord i) rest).trans ?_
  rw [decodeWord_encodeWord hwf]

/-- Settles O2: every word is put together again from the fields its row reads. -/
theorem encodeOfDecodeIsTheWord : Obligations.EncodeOfDecodeIsTheWord :=
  fun _ _ h => encodeWord_of_decodeWord h

/-- Settles O3: a word that decodes is the word of its instruction, which matches that instruction's row; and the mask of a row fixes all the
decoder looks at to select it. -/
theorem decodeSelectsTheMatchingRow : Obligations.DecodeSelectsTheMatchingRow := by
  refine ⟨fun op i h => ?_, fun op j hj h => decodeWord_of_matchesRow hj h⟩
  obtain ⟨rfl, -⟩ := encodeWord_of_decodeWord h
  exact matchesRow_encodeWord i

/-- Settles O4: the decoder's groups and the table name the same words. -/
theorem unknownWordsAreExactlyTheTable : Obligations.UnknownWordsAreExactlyTheTable :=
  ⟨decodeWord_eq_none_iff, decodeWord_eq_sys_iff⟩

/-- Settles O8: the CYCLE advances pc and emits the diagnostic with the fetched word and the pc it was fetched from. -/
theorem unknownWordIsLoggedAndSkipped : Obligations.UnknownWordIsLoggedAndSkipped := by
  intro s op hcycle hrun hpc hd
  obtain ⟨input, hop⟩ := nextOp_of_cycleNext hcycle
  have hstep := (step_cycle hop).trans (cycle_of_unknown (s := s.beginCycle input) hrun hpc hd)
  have hframe := (s.unchangedBut_fetched input).trans ((s.fetched input).unchangedBut_unknownWord op)
  refine ⟨_, hstep, ⟨rfl, rfl⟩, rfl, ?_, hframe.mono (by simp) (by simp)⟩
  exact congrArg (s.events ++ [.unknownOpcode op ·]) (s.pc0_fetched input)

/-- Settles O5: the decoder evaluated on the eleven words. -/
theorem writtenOutWordsDecode : Obligations.WrittenOutWordsDecode := by
  unfold Obligations.WrittenOutWordsDecode
  decide

end Sys2Proof.Proofs
end

section
/-! What CALL, RET and the offset jump leave (40_control_flow R101 to R103). -/

namespace Sys2Proof.Machine

open Sys2Proof.Claims

/-- CALL with room on the stack pushes the advanced pc and jumps. -/
theorem State.callTo_of_room {s : State} (h : stackHasRoom s) (a : Word) : s.callTo a = (s.push s.pc).setPc a :=
  if_neg fun hfull => s.stackFull_iff.1 hfull h

theorem State.returned_of_concat {s : State} {below : List Word} {a : Word} (h : s.stack = below ++ [a]) :
    s.returned = s.dropTop.setPc a := by
  simp only [State.returned, h, List.getLast?_concat]

theorem State.returned_of_nil {s : State} (h : s.stack = []) : s.returned = s.emit (.emptyReturn s.pc0) := by
  simp only [State.returned, h, List.getLast?_nil]

theorem State.stack_returned_of_concat {s : State} {below : List Word} {a : Word} (h : s.stack = below ++ [a]) :
    s.returned.stack = below := by
  simp [State.returned_of_concat h, h]

theorem State.pc_returned_of_concat {s : State} {below : List Word} {a : Word} (h : s.stack = below ++ [a]) : s.returned.pc = a := by
  simp [State.returned_of_concat h]

/-- The sum of the offset jump does not wrap: it stays below `4096 + 256` (decision D6). -/
theorem State.toNat_jumpTarget (s : State) (nnn : BitVec 12) :
    (s.jumpTarget nnn).toNat = nnn.toNat + (s.reg (s.jumpReg nnn)).toNat := by
  have hv : (s.reg (s.jumpReg nnn)).toNat < 2 ^ 8 := BitVec.isLt _
  have hn : nnn.toNat < 2 ^ 12 := nnn.isLt
  simp only [State.jumpTarget, BitVec.toNat_add, toNat_addr12, BitVec.toNat_setWidth]
  omega

theorem State.jumpReg_of_not_jumpVx {s : State} (h : s.config.quirks.jumpVx = false) (nnn : BitVec 12) : s.jumpReg nnn = 0 := by
  simp [State.jumpReg, h]

/-- Under Q_JUMP_VX the register is the one the top nibble of nnn names. -/
theorem State.jumpReg_of_jumpVx {s : State} (h : s.config.quirks.jumpVx = true) {nnn : BitVec 12} {x : RegIdx}
    (hx : x.val = nnn.toNat / 256) : s.jumpReg nnn = x := by
  have hn : nnn.toNat < 2 ^ 12 := nnn.isLt
  refine Fin.ext ?_
  simp only [State.jumpReg, if_pos h, BitVec.val_toFin, BitVec.extractLsb'_toNat, Nat.shiftRight_eq_div_pow]
  omega

end Sys2Proof.Machine
end

section
/-! The obligations of control flow (40_control_flow). -/

namespace Sys2Proof.Proofs

open Sys2Proof.Machine Sys2Proof.Claims

/-- Settles O33: the call leaves its advanced pc as the newest entry, and that entry is what the return pops. -/
theorem returnComesBackBehindTheCall : Obligations.ReturnComesBackBehindTheCall := by
  rintro nnn s _ u hroom ⟨⟩ hstack
  have hpushed : u.stack = s.stack ++ [s.pc] := by rw [hstack, State.callTo_of_room hroom]; rfl
  exact ⟨_, rfl, State.pc_returned_of_concat hpushed, State.stack_returned_of_concat hpushed⟩

/-- Settles O34: the target is the full sum with the register the quirk selects. -/
theorem offsetJumpAddsTheSelectedRegister : Obligations.OffsetJumpAddsTheSelectedRegister := by
  intro nnn s
  have hsum := s.toNat_jumpTarget nnn
  refine ⟨_, rfl, fun hquirk => ?_, fun hquirk x hx => ?_, s.unchangedBut_setPc _⟩
  · rwa [State.jumpReg_of_not_jumpVx hquirk] at hsum
  · rwa [State.jumpReg_of_jumpVx hquirk hx] at hsum

/-- Settles O29: JP is one write of pc, whose value is nnn zero-extended. -/
theorem jumpSetsPc : Obligations.JumpSetsPc :=
  fun nnn s => ⟨_, rfl, toNat_addr12 nnn, s.unchangedBut_setPc _⟩

/-- Settles O30: with room on the stack CALL is a push and a write of pc. -/
theorem callPushesThePcAndJumps : Obligations.CallPushesThePcAndJumps := by
  intro nnn s hroom
  have hframe := (s.unchangedBut_push s.pc).trans (State.unchangedBut_setPc _ (addr12 nnn))
  exact ⟨_, congrArg Host.Outcome.next (State.callTo_of_room hroom _), rfl, toNat_addr12 nnn, hframe.mono (by simp) (by simp)⟩

/-- Settles O32: RET is a pop into pc where there is an entry, and only the diagnostic where there is none. -/
theorem returnPopsOrLogs : Obligations.ReturnPopsOrLogs := by
  refine ⟨fun s below a hstack => ?_, fun s hstack => ?_⟩
  · have hframe := s.unchangedBut_dropTop.trans (State.unchangedBut_setPc _ a)
    refine ⟨s.returned, rfl, State.pc_returned_of_concat hstack, State.stack_returned_of_concat hstack, ?_⟩
    exact State.returned_of_concat hstack ▸ hframe.mono (by simp) (by simp)
  · exact ⟨_, congrArg Host.Outcome.next (State.returned_of_nil hstack), rfl, s.unchangedBut_emit _⟩

end Sys2Proof.Proofs
end

section
/-! Where a skip on a comparison of two bytes leaves pc (41_skips R110 to R113). -/

namespace Sys2Proof.Machine

variable (s : State) (a b : Byte)

theorem State.pc_skipIf_beq : (s.skipIf (a == b)).pc = if a = b then s.pc + 2 else s.pc := by
  simp only [State.pc_skipIf, beq_iff_eq]

theorem State.pc_skipIf_bne : (s.skipIf (a != b)).pc = if a = b then s.pc else s.pc + 2 := by
  simp only [State.pc_skipIf, bne_iff_ne, ite_not]

end Sys2Proof.Machine
end

section
/-! The obligation of the skips (41_skips). -/

namespace Sys2Proof.Proofs

open Sys2Proof.Machine Sys2Proof.Claims

/-- Settles O35: each skip is `skipIf` on its own comparison, which moves pc alone. -/
theorem skipsAdvanceOnTheirCondition : Obligations.SkipsAdvanceOnTheirCondition := by
  intro x y nn s
  refine ⟨?seImm, ?sneImm, ?seReg, ?sneReg⟩
  case seImm => exact ⟨_, rfl, s.pc_skipIf_beq _ _, s.unchangedBut_skipIf _⟩
  case sneImm => exact ⟨_, rfl, s.pc_skipIf_bne _ _, s.unchangedBut_skipIf _⟩
  case seReg => exact ⟨_, rfl, s.pc_skipIf_beq _ _, s.unchangedBut_skipIf _⟩
  case sneReg => exact ⟨_, rfl, s.pc_skipIf_bne _ _, s.unchangedBut_skipIf _⟩

end Sys2Proof.Proofs
end

section
/-! The obligations of the immediates and the index load (42_immediate_index). -/

namespace Sys2Proof.Proofs

open Sys2Proof.Machine Sys2Proof.Claims

/-- Settles O36: each is one write of VX, which is read back as the operand or as the sum of two bytes. -/
theorem immediateLoadAndAddWriteNoFlag : Obligations.ImmediateLoadAndAddWriteNoFlag := by
  intro x nn s
  refine ⟨?ldImm, ?addImm⟩
  case ldImm => exact ⟨_, rfl, s.reg_setReg_same x nn, s.unchangedBut_setReg x _⟩
  case addImm =>
    have hsum : ((s.setReg x (s.reg x + nn)).reg x).toNat = ((s.reg x).toNat + nn.toNat) % 256 := by
      rw [State.reg_setReg_same, BitVec.toNat_add]
    exact ⟨_, rfl, hsum, s.unchangedBut_setReg x _⟩

/-- Settles O37: LD I is one write of I, whose value is nnn zero-extended. -/
theorem indexLoadWritesI : Obligations.IndexLoadWritesI :=
  fun nnn s => ⟨_, rfl, toNat_addr12 nnn, s.unchangedBut_setI _⟩

end Sys2Proof.Proofs
end

section
/-! What the flag of an ALU instruction is worth as a number, and what a shift by one bit does to a byte (43_alu). -/

namespace Sys2Proof.Machine

theorem State.toNat_vf_setResultFlag (s : State) (x : RegIdx) (b : Byte) (flag : Bool) :
    ((s.setResultFlag x b flag).reg vf).toNat = flag.toNat := by
  rw [State.vf_setResultFlag]
  cases flag <;> rfl

/-- Without a borrow the sum `a + not(b) + 1 = 256 + a - b` leaves 8 bits, with one it does not (43_alu R129). -/
theorem toNat_noBorrow (a b : Byte) : (noBorrow a b).toNat = (a.toNat + (~~~b).toNat + 1) / 256 := by
  have ha : a.toNat < 2 ^ 8 := a.isLt
  have hb : b.toNat < 2 ^ 8 := b.isLt
  rw [noBorrow, BitVec.toNat_not]
  by_cases h : b.toNat ≤ a.toNat
  · rw [decide_eq_true h, Bool.toNat_true]
    omega
  · rw [decide_eq_false h, Bool.toNat_false]
    omega

theorem toNat_shiftedOutRight (v : Byte) : (shiftedOutRight v).toNat = v.toNat % 2 := by
  rw [shiftedOutRight, BitVec.getLsbD, Nat.toNat_testBit, pow_zero, Nat.div_one]

theorem toNat_shiftedOutLeft (v : Byte) : (shiftedOutLeft v).toNat = v.toNat / 128 := by
  have hv : v.toNat < 2 ^ 8 := v.isLt
  rw [shiftedOutLeft, BitVec.getLsbD, Nat.toNat_testBit]
  omega

theorem toNat_ushiftRight_one (v : Byte) : (v >>> 1).toNat = v.toNat / 2 := by
  rw [BitVec.toNat_ushiftRight, Nat.shiftRight_eq_div_pow, pow_one]

theorem toNat_shiftLeft_one (v : Byte) : (v <<< 1).toNat = v.toNat * 2 % 256 := by
  rw [BitVec.toNat_shiftLeft, Nat.shiftLeft_eq, pow_one]

end Sys2Proof.Machine
end

section
/-! The obligations of the shifts, of the no-borrow flag and of the assignment and logic forms (43_alu). -/

namespace Sys2Proof.Proofs

open Sys2Proof.Machine Sys2Proof.Claims

/-- Settles O41: the value moved is the shift source, read before either write, and the flag is the bit it loses. -/
theorem shiftsMoveOneBitThenWriteTheBitOut : Obligations.ShiftsMoveOneBitThenWriteTheBitOut := by
  intro x y s v hv
  obtain rfl : v = s.shiftSource x y := hv
  refine ⟨⟨_, rfl, ?shrFlag, fun hx => ?shr, s.unchangedBut_setResultFlag x _ _⟩,
    ⟨_, rfl, ?shlFlag, fun hx => ?shl, s.unchangedBut_setResultFlag x _ _⟩⟩
  case shrFlag => rw [State.toNat_vf_setResultFlag, toNat_shiftedOutRight]
  case shr => rw [State.reg_setResultFlag_of_ne _ hx, toNat_ushiftRight_one]
  case shlFlag => rw [State.toNat_vf_setResultFlag, toNat_shiftedOutLeft]
  case shl => rw [State.reg_setResultFlag_of_ne _ hx, toNat_shiftLeft_one]

/-- Settles O42: both subtractions write the flag no-borrow, which is the carry of the complement sum for any two bytes. -/
theorem noBorrowIsTheCarryOfTheComplementSum : Obligations.NoBorrowIsTheCarryOfTheComplementSum := by
  intro x y s
  refine ⟨⟨_, rfl, ?sub⟩, ⟨_, rfl, ?subn⟩⟩
  case sub => rw [State.toNat_vf_setResultFlag, toNat_noBorrow]
  case subn => rw [State.toNat_vf_setResultFlag, toNat_noBorrow]

/-- Settles O38: each is one write of VX, and the bits of a logic result are those of its operation. -/
theorem assignAndLogicWriteNoFlag : Obligations.AssignAndLogicWriteNoFlag := by
  intro x y s
  refine ⟨?ldReg, ?orReg, ?andReg, ?xorReg⟩
  case ldReg => exact ⟨_, rfl, s.reg_setReg_same x _, s.unchangedBut_setReg x _⟩
  case orReg => exact ⟨_, rfl, fun k => by rw [State.reg_setReg_same, BitVec.getLsbD_or], s.unchangedBut_setReg x _⟩
  case andReg => exact ⟨_, rfl, fun k => by rw [State.reg_setReg_same, BitVec.getLsbD_and], s.unchangedBut_setReg x _⟩
  case xorReg => exact ⟨_, rfl, fun k => by rw [State.reg_setReg_same, BitVec.getLsbD_xor], s.unchangedBut_setReg x _⟩

end Sys2Proof.Proofs
end

section
/-! What CLS and DRW leave on the display and in VF, in the words of the statements (44_display R140, R141). -/

namespace Sys2Proof.Machine

open Sys2Proof.Claims

theorem flagByte_eq_one_iff (b : Bool) : flagByte b = 1 ↔ b = true := by cases b <;> decide

theorem flagByte_eq_zero_iff (b : Bool) : flagByte b = 0 ↔ b = false := by cases b <;> decide

/-! ### The sprite of a draw -/

/-- The bytes DRW reads at I have a dot exactly over the cells the sprite covers. -/
theorem spriteDot_readBytes_iff (s : State) (x y : RegIdx) (n : BitVec 4) (r c : Nat) :
    spriteDot (s.mem.readBytes s.i.toNat n.toNat) (spriteRow s y) (spriteCol s x) r c = true ↔ spriteCovers s x y n r c := by
  rw [spriteDot, Memory.getElem?_readBytes, spriteCovers]
  by_cases hr : spriteRow s y ≤ r
  · have hlast : r - spriteRow s y < n.toNat ↔ r < spriteRow s y + n.toNat := by omega
    by_cases hn : r < spriteRow s y + n.toNat
    · simp [hr, hlast, hn, and_assoc]
    · simp [hlast, hn]
  · simp [hr]

/-- The sprite covers the same cells in two states that agree on memory, I, the parameters and both coordinates. -/
theorem spriteCovers_congr {s t : State} {x y : RegIdx} (hmem : t.mem = s.mem) (hi : t.i = s.i) (hconfig : t.config = s.config)
    (hx : t.reg x = s.reg x) (hy : t.reg y = s.reg y) (n : BitVec 4) (r c : Nat) :
    spriteCovers t x y n r c ↔ spriteCovers s x y n r c := by
  simp only [spriteCovers, spriteRow, spriteCol, hmem, hi, hconfig, hx, hy]

/-! ### The state after a draw -/

/-- DRW whose range lies inside memory draws the sprite. -/
theorem exec_drw_of_fits {s : State} {n : BitVec 4} (h : n = 0 ∨ s.i.toNat + n.toNat ≤ memSize) (x y : RegIdx) :
    exec (.drw x y n) s = .next (s.drawSprite x y n.toNat) := by
  have hok : n.toNat = 0 ∨ s.i.toNat + n.toNat ≤ memSize := h.imp_left (congrArg BitVec.toNat)
  exact congrArg Host.Outcome.next (if_pos ((rangeOk_iff _ _).2 hok))

section

variable {s : State} (hg : s.disp.shaped s.config.width s.config.height) (x y : RegIdx) (n : BitVec 4)

include hg

theorem State.shaped_drawSprite : (s.drawSprite x y n.toNat).disp.shaped s.config.width s.config.height :=
  shaped_drawRows _ _ _ hg

/-- The exclusive-or of R141, cell by cell. -/
theorem State.pixel_drawSprite {r c : Nat} (hrc : onDisplay s r c) :
    (s.drawSprite x y n.toNat).disp.pixel r c = true ↔ ¬(s.disp.pixel r c = true ↔ spriteCovers s x y n r c) := by
  have hpixel := pixel_drawRows (cv := ⟨s.disp, false⟩) (spriteCol s x) (s.mem.readBytes s.i.toNat n.toNat) (spriteRow s y) hg r c
  rw [decide_eq_true (show r < s.config.height ∧ c < s.config.width from hrc), Bool.true_and] at hpixel
  refine (Bool.eq_iff_iff.1 hpixel).trans ?_
  rw [← spriteDot_readBytes_iff, Bool.xor_iff_ne, ne_eq, Bool.eq_iff_iff]

theorem State.collided_drawnCanvas : (s.drawnCanvas x y n.toNat).collided = true ↔
    ∃ r c, onDisplay s r c ∧ spriteCovers s x y n r c ∧ s.disp.pixel r c = true := by
  refine (collided_drawRows _ _ _ hg).trans ?_
  simp only [Bool.false_eq_true, false_or, onDisplay, and_assoc, ← spriteDot_readBytes_iff]
  rfl

/-- VF is the collision flag, also where VF held a coordinate (decision D7). -/
theorem State.vf_drawSprite_eq_one_iff : (s.drawSprite x y n.toNat).reg vf = 1 ↔
    ∃ r c, onDisplay s r c ∧ spriteCovers s x y n r c ∧ s.disp.pixel r c = true := by
  rw [State.drawSprite, State.reg_setFlag, if_pos rfl, flagByte_eq_one_iff, State.collided_drawnCanvas hg]

theorem State.vf_drawSprite_eq_zero_iff : (s.drawSprite x y n.toNat).reg vf = 0 ↔
    ¬∃ r c, onDisplay s r c ∧ spriteCovers s x y n r c ∧ s.disp.pixel r c = true := by
  rw [State.drawSprite, State.reg_setFlag, if_pos rfl, flagByte_eq_zero_iff, ← State.collided_drawnCanvas hg, Bool.not_eq_true]

end

/-! ### A second draw at the same place -/

section

variable {s : State} (hg : s.disp.shaped s.config.width s.config.height) {x y : RegIdx} {n : BitVec 4}
  (hx : (s.drawSprite x y n.toNat).reg x = s.reg x) (hy : (s.drawSprite x y n.toNat).reg y = s.reg y)

include hx hy

theorem spriteCovers_drawSprite (r c : Nat) :
    spriteCovers (s.drawSprite x y n.toNat) x y n r c ↔ spriteCovers s x y n r c :=
  spriteCovers_congr (s := s) (t := s.drawSprite x y n.toNat) rfl rfl rfl hx hy n r c

include hg

/-- The second exclusive-or with the same dots undoes the first. -/
theorem State.disp_drawSprite_twice : ((s.drawSprite x y n.toNat).drawSprite x y n.toNat).disp = s.disp := by
  have hg' := State.shaped_drawSprite hg x y n
  refine Grid.ext_of_pixel (State.shaped_drawSprite hg' x y n) hg fun r c hr hc => Bool.eq_iff_iff.2 ?_
  rw [State.pixel_drawSprite hg' x y n ⟨hr, hc⟩, spriteCovers_drawSprite hx hy, State.pixel_drawSprite hg x y n ⟨hr, hc⟩]
  tauto

/-- A covered cell is set before the second draw exactly when it was clear before the first. -/
theorem State.vf_drawSprite_twice : ((s.drawSprite x y n.toNat).drawSprite x y n.toNat).reg vf = 1 ↔
    ∃ r c, onDisplay s r c ∧ spriteCovers s x y n r c ∧ s.disp.pixel r c = false := by
  rw [State.vf_drawSprite_eq_one_iff (State.shaped_drawSprite hg x y n)]
  refine exists_congr fun r => exists_congr fun c => and_congr_right fun hrc => ?_
  rw [spriteCovers_drawSprite hx hy, State.pixel_drawSprite hg x y n hrc, ← Bool.not_eq_true]
  tauto

end

end Sys2Proof.Machine
end

section
/-! The obligations of the display (44_display). -/

namespace Sys2Proof.Proofs

open Sys2Proof.Machine Sys2Proof.Claims

/-- Settles O44: what the sprite engine does to every pixel, with its dots read as the cells the sprite covers. -/
theorem drawXorsTheSpriteInsideTheClip : Obligations.DrawXorsTheSpriteInsideTheClip := by
  intro x y n s hg hfit
  exact ⟨_, exec_drw_of_fits hfit x y, State.shaped_drawSprite hg x y n, fun _ _ => State.pixel_drawSprite hg x y n,
    (State.vf_drawSprite_eq_one_iff hg x y n).2, (State.vf_drawSprite_eq_zero_iff hg x y n).2, rfl, s.unchangedBut_drawSprite x y _⟩

/-- Settles O45: the first draw leaves memory, I, the parameters and by hypothesis both coordinates, so the second has the same dots. -/
theorem drawingTwiceRestoresTheDisplay : Obligations.DrawingTwiceRestoresTheDisplay := by
  intro x y n s t hg hfit hexec hx hy
  cases (exec_drw_of_fits hfit x y).symm.trans hexec
  exact ⟨_, exec_drw_of_fits (s := s.drawSprite x y n.toNat) hfit x y, State.disp_drawSprite_twice hg hx hy,
    State.vf_drawSprite_twice hg hx hy⟩

/-- Settles O43: the display becomes the blank grid of RESET's shape. -/
theorem clearScreenClearsEveryCell : Obligations.ClearScreenClearsEveryCell :=
  fun s => ⟨_, rfl, Grid.shaped_blank _ _, Grid.pixel_blank _ _, rfl, s.unchangedBut_setDisp _⟩

end Sys2Proof.Proofs
end

section
/-! What the instructions that move bytes at I, or add to I, leave in memory, I and the registers (45_memory_index R150 to R153). -/

namespace Sys2Proof.Machine

open Sys2Proof.Claims

/-! ### Stores inside memory -/

section

variable {i : Instr} {s t : State} (hst : storeLength i ≠ 0) (hwf : s.mem.wf) (hfit : s.i.toNat + storeLength i ≤ memSize)
  (h : exec i s = .next t)

include hst hwf hfit h

theorem wf_exec_of_store : t.mem.wf := by
  rw [(exec_of_store hst hfit h).2]
  exact Memory.wf_writeBytes hwf _ _

theorem read_exec_of_store_inside {k : Nat} (hk : k < storeLength i) : t.mem.read (s.i.toNat + k) = storedByte s k i := by
  rw [read_exec_of_store hst hwf hfit h, byteAfterStore, if_pos (by omega), Nat.add_sub_cancel_left]

theorem read_exec_of_store_outside {a : Nat} (ha : ¬(s.i.toNat ≤ a ∧ a < s.i.toNat + storeLength i)) :
    t.mem.read a = s.mem.read a := by
  rw [read_exec_of_store hst hwf hfit h, byteAfterStore, if_neg ha]

end

theorem storedByte_ldMemVx (s : State) (k x : RegIdx) : storedByte s k.val (.ldMemVx x) = s.reg k :=
  congrArg s.reg (Fin.ofNat_val_eq_self k)

/-- The three bytes of LD B, Vx as numbers: each is below 256, so that none is cut. -/
theorem toNat_storedByte_ldBVx (s : State) (x : RegIdx) :
    (storedByte s 0 (.ldBVx x)).toNat = (s.reg x).toNat / 100 ∧
    (storedByte s 1 (.ldBVx x)).toNat = (s.reg x).toNat / 10 % 10 ∧
    (storedByte s 2 (.ldBVx x)).toNat = (s.reg x).toNat % 10 := by
  have hv : (s.reg x).toNat < 2 ^ 8 := (s.reg x).isLt
  refine ⟨?hundreds, ?tens, ?units⟩
  case hundreds => exact (BitVec.toNat_ofNat _ 8).trans (Nat.mod_eq_of_lt (by omega))
  case tens => exact (BitVec.toNat_ofNat _ 8).trans (Nat.mod_eq_of_lt (by omega))
  case units => exact (BitVec.toNat_ofNat _ 8).trans (Nat.mod_eq_of_lt (by omega))

/-! ### The effect of a range inside memory -/

theorem exec_ldBVx_of_fits {s : State} (h : s.i.toNat + 3 ≤ memSize) (x : RegIdx) :
    exec (.ldBVx x) s = .next (s.storeAtI (bcdDigits (s.reg x))) :=
  congrArg Host.Outcome.next (State.checked_of_fits h _)

section

variable {s : State} {x : RegIdx} (h : s.i.toNat + (x.val + 1) ≤ memSize)

include h

theorem exec_ldMemVx_of_fits : exec (.ldMemVx x) s = .next ((s.storeAtI (s.regBytes (x.val + 1))).bumpI (x.val + 1)) :=
  congrArg Host.Outcome.next (State.checked_of_fits h _)

theorem exec_ldVxMem_of_fits : exec (.ldVxMem x) s = .next ((s.loadRegs s.i.toNat (x.val + 1)).bumpI (x.val + 1)) :=
  congrArg Host.Outcome.next (State.checked_of_fits h _)

end

/-! ### The index register -/

/-- The increment past a range inside memory does not wrap: I stays at or below 4096. -/
theorem State.toNat_i_bumpI {s : State} {n : Nat} (h : s.i.toNat + n ≤ memSize) :
    (s.bumpI n).i.toNat = s.i.toNat + (if s.config.quirks.memIncrI = true then n else 0) := by
  have hfit : s.i.toNat + n ≤ 4096 := h
  rw [State.i_bumpI]
  split
  · rw [BitVec.toNat_add, BitVec.toNat_ofNat]
    omega
  · rfl

theorem State.toNat_i_addToI (s : State) (x : RegIdx) : (s.addToI x).i.toNat = (s.i.toNat + (s.reg x).toNat) % 65536 := by
  have hi : (s.addToI x).i = s.i + (s.reg x).setWidth 16 := by
    unfold State.addToI
    split <;> rfl
  rw [hi, BitVec.toNat_add, BitVec.toNat_setWidth, Nat.add_mod_mod]

theorem State.vf_addToI (s : State) (x : RegIdx) : (s.addToI x).reg vf = if s.config.quirks.iaddVf = true then 1 else s.reg vf := by
  unfold State.addToI
  split
  · exact State.reg_setReg_same _ vf _
  · rfl

end Sys2Proof.Machine
end

section
/-! The obligations of memory through the index register (45_memory_index). -/

namespace Sys2Proof.Proofs

open Sys2Proof.Machine Sys2Proof.Claims

/-- Settles O47: the range lies inside memory, so the registers are stored at I as one run, and the increment of I does not wrap. -/
theorem registerDumpStoresV0ToVX : Obligations.RegisterDumpStoresV0ToVX := by
  intro x s hwf hfit
  have hst : storeLength (.ldMemVx x) ≠ 0 := Nat.succ_ne_zero _
  have hexec := exec_ldMemVx_of_fits hfit
  have hframe := (s.unchangedBut_storeAtI (s.regBytes (x.val + 1))).trans (State.unchangedBut_bumpI _ (x.val + 1))
  refine ⟨_, hexec, fun k hk => ?_, fun _ => read_exec_of_store_outside hst hwf hfit hexec,
    State.toNat_i_bumpI (s := s.storeAtI _) hfit, wf_exec_of_store hst hwf hfit hexec, hframe⟩
  rw [read_exec_of_store_inside hst hwf hfit hexec (Nat.lt_succ_of_le hk), storedByte_ldMemVx]

/-- Settles O48: the range lies inside memory, so the registers up to VX are read from it, and the increment of I does not wrap. -/
theorem registerLoadReadsV0ToVX : Obligations.RegisterLoadReadsV0ToVX := by
  intro x s hfit
  have hload := fun k : RegIdx => s.reg_loadRegs s.i.toNat k (x.val + 1) x.isLt
  have hi : (s.loadRegs s.i.toNat (x.val + 1)).i = s.i := s.samePart_loadRegs s.i.toNat .i _
  have hconfig := State.config_of_guarded (s.guarded_loadRegs s.i.toNat (x.val + 1))
  have hframe := (s.unchangedBut_loadRegs s.i.toNat x).trans (State.unchangedBut_bumpI _ (x.val + 1))
  refine ⟨_, exec_ldVxMem_of_fits hfit, fun k hk => ?_, fun k hk => ?_, ?_, hframe.mono (by simp [regsWritten]) (by simp)⟩
  · rw [State.reg_bumpI, hload, if_pos (Nat.lt_succ_of_le hk)]
  · rw [State.reg_bumpI, hload, if_neg (Nat.not_lt.2 hk)]
  · rw [State.toNat_i_bumpI (by rwa [hi]), hi, hconfig]

/-- Settles O49: the load reads at the same I the bytes the dump left there, and these are the registers. -/
theorem dumpThenLoadRoundTrips : Obligations.DumpThenLoadRoundTrips := by
  intro x s t u hwf hfit hexec hmem hi
  obtain ⟨_, hdump, hstored, -⟩ := registerDumpStoresV0ToVX x s hwf hfit
  cases hdump.symm.trans hexec
  obtain ⟨w, hload, hloaded, -⟩ := registerLoadReadsV0ToVX x u (hi ▸ hfit)
  refine ⟨w, hload, fun k hk => ?_⟩
  rw [hloaded k hk, hmem, hi, hstored k hk]

/-- Settles O50: the sum is formed before VF is written, and the flag is 1 under the toggle alone. -/
theorem indexAddWrapsAt16Bits : Obligations.IndexAddWrapsAt16Bits :=
  fun x s => ⟨_, rfl, s.toNat_i_addToI x, s.vf_addToI x, s.unchangedBut_addToI x⟩

/-- Settles O51: the bytes read back at I are the quotients and remainders of VX by powers of ten. -/
theorem bcdStoresTheDecimalDigits : Obligations.BcdStoresTheDecimalDigits := by
  intro x s hwf hfit
  have hst : storeLength (.ldBVx x) ≠ 0 := Nat.succ_ne_zero _
  have hexec := exec_ldBVx_of_fits hfit x
  have hread : ∀ k < 3, (s.storeAtI (bcdDigits (s.reg x))).mem.read (s.i.toNat + k) = storedByte s k (.ldBVx x) :=
    fun _ hk => read_exec_of_store_inside hst hwf hfit hexec hk
  obtain ⟨hhundreds, htens, hunits⟩ := toNat_storedByte_ldBVx s x
  rw [← hread 0 (by decide), Nat.add_zero] at hhundreds
  rw [← hread 1 (by decide)] at htens
  rw [← hread 2 (by decide)] at hunits
  have hv : (s.reg x).toNat < 2 ^ 8 := (s.reg x).isLt
  exact ⟨_, hexec, by omega, by omega, by omega, by omega, fun _ => read_exec_of_store_outside hst hwf hfit hexec,
    wf_exec_of_store hst hwf hfit hexec, s.unchangedBut_storeAtI _⟩

end Sys2Proof.Proofs
end

section
/-! What the answer of the key query selects: the byte stored or the rewind of LD Vx, K, and the condition of SKP and SKNP
(46_keys_timers R160 to R162). -/

namespace Sys2Proof.Machine

/-- The number of a key is at most 15, so the byte holds it in full (decision D18). -/
theorem toNat_keyByte (k : Key) : (keyByte k).toNat = k.val := by
  have hk : k.val < 16 := k.isLt
  exact (BitVec.toNat_ofNat _ 8).trans (Nat.mod_eq_of_lt (by omega))

theorem keyByte_eq_iff (k : Key) (b : Byte) : keyByte k = b ↔ k.val = b.toNat := by
  rw [← BitVec.toNat_inj, toNat_keyByte]

theorem State.keyIs_iff (s : State) (x : RegIdx) : s.keyIs x = true ↔ ∃ k : Key, s.input.key = some k ∧ k.val = (s.reg x).toNat := by
  unfold State.keyIs
  split
  next hnone => simp [hnone]
  next k hsome => simp [hsome, keyByte_eq_iff]

theorem State.awaitKey_of_key {s : State} {k : Key} (h : s.input.key = some k) (x : RegIdx) : s.awaitKey x = s.setReg x (keyByte k) := by
  simp only [State.awaitKey, h]

theorem State.awaitKey_of_no_key {s : State} (h : s.input.key = none) (x : RegIdx) : s.awaitKey x = s.setPc (s.pc - 2) := by
  simp only [State.awaitKey, h]

/-- The rewind undoes the fetch's advance: of the CYCLE nothing is left but the operation taken and its inputs. -/
theorem State.awaitKey_fetched_of_no_key {input : CycleInput} (h : input.key = none) (s : State) (x : RegIdx) :
    (s.fetched input).awaitKey x = s.beginCycle input := by
  have hpc : (s.fetched input).pc - 2 = s.pc := s.pc0_fetched input
  rw [State.awaitKey_of_no_key (s := s.fetched input) h, hpc]
  rfl

end Sys2Proof.Machine
end

section
/-! The obligations of the keys and the timers (46_keys_timers). -/

namespace Sys2Proof.Proofs

open Sys2Proof.Machine Sys2Proof.Claims

/-- Settles O54: the step runs LD Vx, K after the fetch, and its rewind leaves the state in which the CYCLE began. -/
theorem keyWaitCycleChangesNothing : Obligations.KeyWaitCycleChangesNothing := by
  intro x s input hrun hop hkey
  have hstep : step s = .next (s.beginCycle input) := by
    rw [step_of_runsNext hrun hop, ← State.awaitKey_fetched_of_no_key hkey s x]
    rfl
  exact ⟨_, hstep, ⟨rfl, rfl⟩, s.unchangedBut_beginCycle input⟩

/-- Settles O55: one comparison decides both skips, SKP on its truth and SKNP on its failure. -/
theorem keySkipsAreComplements : Obligations.KeySkipsAreComplements := by
  intro x s
  refine ⟨_, _, rfl, rfl, fun hkey => ?equal, fun hkey => ?unequal, s.unchangedBut_skipIf _, s.unchangedBut_skipIf _⟩
  case equal =>
    have his : s.keyIs x = true := (s.keyIs_iff x).2 hkey
    simp [State.pc_skipIf, his]
  case unequal =>
    have his : s.keyIs x = false := Bool.eq_false_iff.2 (mt (s.keyIs_iff x).1 hkey)
    simp [State.pc_skipIf, his]

/-- Settles O53: a reported key is one write of VX, which holds its number in full; no key is one write of pc. -/
theorem keyWaitStoresTheKeyOrRewinds : Obligations.KeyWaitStoresTheKeyOrRewinds := by
  refine ⟨fun x s k hkey => ?stores, fun x s hkey => ?rewinds⟩
  case stores =>
    refine ⟨s.setReg x (keyByte k), congrArg Host.Outcome.next (State.awaitKey_of_key hkey x), ?_, s.unchangedBut_setReg x _⟩
    rw [State.reg_setReg_same, toNat_keyByte]
  case rewinds =>
    exact ⟨s.setPc (s.pc - 2), congrArg Host.Outcome.next (State.awaitKey_of_no_key hkey x), rfl, s.unchangedBut_setPc _⟩

/-- Settles O56: each is one write, of VX or of a timer, and the event log is in its frame. -/
theorem timerTransfersCopyAByte : Obligations.TimerTransfersCopyAByte := by
  intro x s
  refine ⟨?ldVxDt, ?ldDtVx, ?ldStVx⟩
  case ldVxDt => exact ⟨_, rfl, s.reg_setReg_same x s.dt, s.unchangedBut_setReg x _⟩
  case ldDtVx => exact ⟨_, rfl, rfl, s.unchangedBut_setDt _⟩
  case ldStVx => exact ⟨_, rfl, rfl, s.unchangedBut_setSt _⟩

end Sys2Proof.Proofs
end

section
/-! The glyph address of LD F and the word of SYS (47_rnd_font_sys R171, R172). -/

namespace Sys2Proof.Machine

/-- The font lies below the program (00_scope R4), so the address of a glyph does not wrap; the low nibble selects it (decision D13). -/
theorem State.toNat_glyphAddr {s : State} (h : s.config.legal) (v : Byte) :
    (s.glyphAddr v).toNat = s.config.fontBase + 5 * (v.toNat % 16) := by
  have hbase : s.config.fontBase + 80 ≤ 512 := h.1
  simp only [State.glyphAddr, BitVec.toNat_ofNat, BitVec.extractLsb'_toNat, Nat.shiftRight_zero]
  omega

theorem encodeNNN_zero (nnn : BitVec 12) : encodeNNN 0x0 nnn = nnn.setWidth 16 :=
  (BitVec.setWidth_eq_append (by decide)).symm

end Sys2Proof.Machine
end

section
/-! The obligations of RND, LD F and SYS (47_rnd_font_sys). -/

namespace Sys2Proof.Proofs

open Sys2Proof.Machine Sys2Proof.Claims

/-- Settles O57: the one write is the conjunction of the drawn byte with the mask, bit by bit. -/
theorem randomByteStaysUnderTheMask : Obligations.RandomByteStaysUnderTheMask := by
  refine fun x nn s => ⟨_, rfl, fun k => ?_, s.unchangedBut_setReg x _⟩
  rw [State.reg_setReg_same, BitVec.getLsbD_and]

/-- Settles O58: the one write is the glyph address, which legal parameters keep from wrapping. -/
theorem fontPointerSelectsTheGlyph : Obligations.FontPointerSelectsTheGlyph :=
  fun x s hlegal => ⟨_, rfl, State.toNat_glyphAddr hlegal (s.reg x), s.unchangedBut_setI _⟩

/-- Settles O59: SYS runs the unknown-word rule on its own word, whose top nibble is 0. -/
theorem sysIsLoggedAndIgnored : Obligations.SysIsLoggedAndIgnored := by
  refine fun nnn s => ⟨s.unknownWord (encodeNNN 0x0 nnn), rfl, ?_, s.unchangedBut_unknownWord _⟩
  rw [encodeNNN_zero]
  rfl

end Sys2Proof.Proofs
end

section
/-! What TICK leaves in the timers and in the log, and that no other operation emits BEEP_STOP (60_exceptions R190, R191). -/

namespace Sys2Proof.Machine

open Sys2Proof.Claims

/-! ### TICK -/

theorem toNat_pred_byte {b : Byte} (h : b ≠ 0) : (b - 1).toNat = b.toNat - 1 := by
  bv_omega

section

variable (s : State)

theorem State.toNat_dt_tickDelay : s.tickDelay.dt.toNat = s.dt.toNat - 1 := by
  unfold State.tickDelay
  split
  next h => simp [h]
  next h => exact toNat_pred_byte h

theorem State.toNat_st_tickSound : s.tickSound.st.toNat = s.st.toNat - 1 := by
  unfold State.tickSound
  split
  next h => simp [h]
  next h =>
    split
    next h1 => simp [h1]
    next => exact toNat_pred_byte h

theorem State.events_tickSound : s.tickSound.events = s.events ++ if s.st = 1 then [.beepStop] else [] := by
  unfold State.tickSound
  split
  next h => simp [h]
  next =>
    split
    next => simp
    next => simp

theorem State.dt_tickSound : s.tickSound.dt = s.dt := s.unchangedBut_tickSound.part (p := .dt) (by decide)

theorem State.st_tickDelay : s.tickDelay.st = s.st := s.unchangedBut_tickDelay.part (p := .st) (by decide)

theorem State.events_tickDelay : s.tickDelay.events = s.events := s.unchangedBut_tickDelay.part (p := .events) (by decide)

variable {s}

theorem tick_of_running (h : s.fault = none) : tick s = s.tickDelay.tickSound :=
  if_neg (by simp [h])

theorem step_tick (h : s.nextOp = .tick) : step s = .next (tick s.takeOp) := by
  rw [step, hostStep, h]

theorem toNat_dt_tick (h : s.fault = none) : (tick s).dt.toNat = s.dt.toNat - 1 := by
  rw [tick_of_running h, State.dt_tickSound, State.toNat_dt_tickDelay]

theorem toNat_st_tick (h : s.fault = none) : (tick s).st.toNat = s.st.toNat - 1 := by
  rw [tick_of_running h, State.toNat_st_tickSound, State.st_tickDelay]

variable (s) in
/-- A running TICK logs BEEP_STOP where it takes ST from 1 to 0, and a TICK under a latch logs nothing (decision D20). -/
theorem events_tick : (tick s).events = s.events ++ if s.fault = none ∧ s.st = 1 then [.beepStop] else [] := by
  by_cases h : s.fault = none
  · simp [tick_of_running h, State.events_tickSound, State.events_tickDelay, State.st_tickDelay, h]
  · simp [tick_of_faulted h, h]

variable (s) in
theorem tick_count_beepStop :
    (tick s).events.count .beepStop = s.events.count .beepStop + if s.fault = none ∧ s.st = 1 then 1 else 0 := by
  rw [events_tick, List.count_append, apply_ite (List.count Event.beepStop)]
  rfl

end

/-! ### The BEEP_STOP events of a CYCLE -/

theorem State.count_beepStop_emit (s : State) {e : Event} (h : e ≠ .beepStop) :
    (s.emit e).events.count .beepStop = s.events.count .beepStop := by
  simp [List.count_eq_zero_of_not_mem, h.symm]

theorem State.count_beepStop_returned (s : State) : s.returned.events.count .beepStop = s.events.count .beepStop := by
  unfold State.returned
  split
  · rfl
  · exact s.count_beepStop_emit (by simp)

/-- Beside SYS and RET no instruction's rule names the log. -/
theorem events_mem_partsTouched {i : Instr} (h : Part.events ∈ partsTouched i) : (∃ nnn, i = .sys nnn) ∨ i = .ret := by
  cases i <;> simp_all [partsTouched, partsWritten]

/-- The events of an instruction are the two diagnostics (10_state R36). -/
theorem exec_count_beepStop {i : Instr} {s t : State} (h : exec i s = .next t) :
    t.events.count .beepStop = s.events.count .beepStop := by
  by_cases he : Part.events ∈ partsTouched i
  · obtain ⟨nnn, rfl⟩ | rfl := events_mem_partsTouched he
    · cases h
      exact s.count_beepStop_emit (by simp)
    · cases h
      exact s.count_beepStop_returned
  · exact congrArg (List.count .beepStop) ((exec_frame h).part he)

theorem cycle_count_beepStop {s t : State} (h : cycle s = .next t) :
    t.events.count .beepStop = s.events.count .beepStop := by
  obtain ⟨-, hc⟩ | ⟨-, -, hc⟩ | ⟨i, -, -, -, hc⟩ | ⟨-, -, -, hc⟩ := cycle_cases s
  · cases hc.symm.trans h
    rfl
  · cases hc.symm.trans h
    rfl
  · exact exec_count_beepStop (s := s.setPc (s.pc + 2)) (hc.symm.trans h)
  · cases hc.symm.trans h
    exact State.count_beepStop_emit _ (by simp)

end Sys2Proof.Machine
end

section
/-! The obligations of the exceptions and of TICK (60_exceptions). -/

namespace Sys2Proof.Proofs

open Sys2Proof.Machine Sys2Proof.Claims

/-- Settles O22: by the operation of the step; a CYCLE logs diagnostics alone, TICK by `tick_count_beepStop`, and CLEAR_DIRTY and RESET keep the
log. -/
theorem beepStopComesFromTheDecrementToZero : Obligations.BeepStopComesFromTheDecrementToZero := by
  intro s t h
  obtain ⟨input, hop, hstep⟩ | ⟨hop, hstep⟩ | ⟨hop, hstep⟩ | ⟨rom, config, hop, hstep⟩ := step_cases s
  · have hcount := cycle_count_beepStop (hstep.symm.trans h)
    simpa [tickNext, hop] using hcount
  · cases hstep.symm.trans h
    exact (tick_count_beepStop s.takeOp).trans (congrArg _ (if_congr (by simp [tickNext, hop]) rfl rfl))
  · cases hstep.symm.trans h
    simp [tickNext, hop, clearDirty]
  · obtain ⟨-, rfl⟩ := resetOp_next (hstep.symm.trans h)
    simp [tickNext, hop]

/-- Settles O23: a running TICK is the operation taken, then the delay timer's part, then the sound timer's. -/
theorem tickCountsTheTimersDown : Obligations.TickCountsTheTimersDown := by
  intro s hop hrun
  have hfault : s.fault = none := hrun
  have hevents : (tick s.takeOp).events = s.events ++ if s.st = 1 then [.beepStop] else [] := by
    simpa [hfault] using events_tick s.takeOp
  have htick := unchangedBut_tick s.takeOp
  have htaken : opTaken s (tick s.takeOp) := ⟨htick.part (p := .host) (by decide), htick.part (p := .freeCount) (by decide)⟩
  exact ⟨_, step_tick hop, htaken, toNat_dt_tick hfault, toNat_st_tick hfault, hevents,
    (s.unchangedBut_takeOp.trans htick).mono (by simp) (by simp)⟩

/-- Settles O11: each instruction's frame comes with the next state it answers. -/
theorem everyInstructionAnswersANextState : Obligations.EveryInstructionAnswersANextState :=
  fun i s => (exec_next_frame i s).imp fun _ => And.left

/-- Settles O26: of the three outcomes of a RESET only the fault has legal parameters and too long an image. -/
theorem resetRejectsATooLongImage : Obligations.ResetRejectsATooLongImage := by
  intro s rom config hop hlegal hlong
  obtain ⟨-, hlen, -⟩ | ⟨-, -, hreset⟩ | ⟨hillegal, -⟩ := resetOp_cases rom config s.takeOp
  · exact absurd hlong (Nat.not_lt.2 hlen)
  · exact (step_reset hop).trans hreset
  · exact absurd hlegal hillegal

end Sys2Proof.Proofs
end
